-- ==== Sys2Proof/Word.lean ====
section
/-! DEFINITION. Word.lean: the element types of the buffers and the names of the eight address spaces. -/

namespace Sys2Proof

/-- A `u8` element of `IB` or `OB` (10_state.md R21, R26). -/
abbrev Byte := BitVec 8

/-- A 32-bit word: a command word, a register, or an `int32` as its two's-complement pattern
(00_scope.md R8, 20_memory.md R53). -/
abbrev Word := BitVec 32

/-- Five like things: the equipment words `ego[0]` to `ego[4]` of a record (10_state.md R24). -/
structure Five (α : Type) where
  e0 : α
  e1 : α
  e2 : α
  e3 : α
  e4 : α
  deriving DecidableEq, Repr

/-- The eight address spaces, one per buffer (20_memory.md R50). -/
inductive Space where
  | ib | ibit | iint | irec | ob | obit | oint | orec
  deriving DecidableEq, Repr

end Sys2Proof
end

