-- ==== Sys2Proof/Config.lean ====
section
/-! DEFINITION. Config.lean: the parameters of a block (00_scope.md R7) and the free values. -/

namespace Sys2Proof

/-- Which record wins when two records of `IREC` carry the same slot key on the standard `ENC` path
(00_scope.md R7, 42_formation_field_packer.md R126; OPEN, 92_eei_decisions.md D10). -/
inductive DupPolicy where
  | first | last
  deriving DecidableEq, Repr

/-- The implementation parameters of one block, 00_scope.md R7. They are plain data, constant for a
block, and stand in `State`, so that a statement about every state is a statement about every block. -/
structure Params where
  hasIlm    : Bool
  ibCap     : Nat
  ibitCap   : Nat
  iintCap   : Nat
  irecCap   : Nat
  obCap     : Nat
  obitCap   : Nat
  ointCap   : Nat
  orecCap   : Nat
  dupPolicy : DupPolicy
  /-- The `Low4` of 42_formation_field_packer.md R127 for a slot type outside 0 to 15, as a list of
  exceptions to "the low four bits" (93_implementation_defined.md U2; log entry 5). Entries for 0 to 15
  have no effect. -/
  low4Outside : List (Word × BitVec 4)
  deriving DecidableEq, Repr

/-- The constraint column of 00_scope.md R7. DEDUCED (log entry 4): an output capacity also fits the
32-bit length register that counts up to it (10_state.md R32). -/
abbrev Params.legal (p : Params) : Prop :=
  (70 ≤ p.ibCap ∧ p.ibCap ≤ 8191) ∧ (553 ≤ p.ibitCap ∧ p.ibitCap ≤ 65535) ∧
  7 ≤ p.iintCap ∧ 12 ≤ p.irecCap ∧
  (70 ≤ p.obCap ∧ (p.ibitCap + 7) / 8 ≤ p.obCap ∧ 4 * p.iintCap ≤ p.obCap ∧
    28 * p.irecCap ≤ p.obCap ∧ p.obCap < 2 ^ 32) ∧
  (8 * p.ibCap ≤ p.obitCap ∧ p.obitCap < 2 ^ 32) ∧
  (p.ibCap / 4 ≤ p.ointCap ∧ p.ointCap < 2 ^ 32) ∧
  (12 ≤ p.orecCap ∧ p.orecCap < 2 ^ 32)

/-- The column "value if the model wants one fixed instance" of 00_scope.md R7.
DESIGN CHOICE (log entry 1). -/
def Params.standard : Params where
  hasIlm := true
  ibCap := 512
  ibitCap := 4096
  iintCap := 128
  irecCap := 16
  obCap := 512
  obitCap := 4096
  ointCap := 128
  orecCap := 12
  dupPolicy := .last
  low4Outside := []

/-- FREE VALUE (log entry 3): the bit a never-written element of a bit buffer holds; arguments: the
space, how often the block was reset, the index (10_state.md R36: contents unspecified). -/
opaque Config.unwrittenBit : Space → Nat → Nat → Bool

/-- FREE VALUE (log entry 3): the byte a never-written element of a byte buffer holds. -/
opaque Config.unwrittenByte : Space → Nat → Nat → Byte

/-- FREE VALUE (log entry 3): the word a never-written `int32` element, or word `k` (the last argument)
of a never-written record, holds. -/
opaque Config.unwrittenWord : Space → Nat → Nat → Nat → Word

end Sys2Proof
end

