-- ==== Sys2Proof/Syntax.lean ====
section
/-! DEFINITION. Syntax.lean: the nine commands, one constructor per row of spec/opcode_table.json. -/

namespace Sys2Proof

/-- The commands (30_encoding.md R72, R74, R78). `EXPECT` of `BTOB` is the one immediate, an unsigned
16-bit number (R73). -/
inductive Instr where
  | btob (expect : BitVec 16)
  | btoy
  | ienc
  | iencN
  | idec
  | dec
  | decV
  | enc
  | encR
  deriving DecidableEq, Repr

/-- The mnemonic of a command (30_encoding.md R78, R79). -/
def Instr.mnemonic : Instr → String
  | .btob _ => "BTOB"
  | .btoy => "BTOY"
  | .ienc => "IENC"
  | .iencN => "IENC.N"
  | .idec => "IDEC"
  | .dec => "DEC"
  | .decV => "DEC.V"
  | .enc => "ENC"
  | .encR => "ENC.R"

/-- The command in the assembler syntax of 30_encoding.md R79: the mnemonic, and after it the one
operand of `BTOB` in decimal. -/
def Instr.asm : Instr → String
  | .btob e => "BTOB " ++ Nat.repr e.toNat
  | .btoy => Instr.mnemonic .btoy
  | .ienc => Instr.mnemonic .ienc
  | .iencN => Instr.mnemonic .iencN
  | .idec => Instr.mnemonic .idec
  | .dec => Instr.mnemonic .dec
  | .decV => Instr.mnemonic .decV
  | .enc => Instr.mnemonic .enc
  | .encR => Instr.mnemonic .encR

end Sys2Proof
end

