-- ==== Sys2Proof/WellFormed.lean ====
section
/-! DEFINITION. WellFormed.lean: which commands a block has. -/

namespace Sys2Proof

/-- The commands of the optional marshaller (00_scope.md R2; 30_encoding.md R72, R78). -/
def Instr.needsIlm : Instr → Bool
  | .btob _ => false
  | .btoy => false
  | .ienc => true
  | .iencN => true
  | .idec => true
  | .dec => false
  | .decV => false
  | .enc => false
  | .encR => true

/-- A command is well formed on a block when the block has the unit it needs (30_encoding.md R76, last
clause). The operand of `BTOB` needs no check: its type admits exactly 0 to 65535 (R79). -/
def Instr.wellFormed (hasIlm : Bool) (i : Instr) : Bool :=
  !i.needsIlm || hasIlm

end Sys2Proof
end

