-- ==== Sys2Proof/Decode.lean ====
section
/-! DEFINITION. Decode.lean: the decoder of the 32-bit command word, `Legal(w)`, and the encoder
(30_encoding.md R70 to R78). -/

namespace Sys2Proof

/-- Why a word encodes no command, one name per clause of 30_encoding.md R76 that the word itself can break. -/
inductive IllegalReason where
  | reservedBits | reservedOp | flagV | flagR | flagN | expect
  deriving DecidableEq, Repr

/-- What the decoder answers: a command, or the clause of R76 the word breaks. -/
inductive DecodeResult where
  | command (i : Instr)
  | illegal (why : IllegalReason)
  deriving DecidableEq, Repr

/-- `OP`, word-bits 3:0 (30_encoding.md R71). -/
def fieldOp (w : Word) : BitVec 4 := w.extractLsb' 0 4
/-- `V`, word-bit 4. -/
def fieldV (w : Word) : Bool := w.getLsbD 4
/-- `R`, word-bit 5. -/
def fieldR (w : Word) : Bool := w.getLsbD 5
/-- `N`, word-bit 6. -/
def fieldN (w : Word) : Bool := w.getLsbD 6
/-- The reserved word-bits 15:7. -/
def fieldReserved (w : Word) : BitVec 9 := w.extractLsb' 7 9
/-- `EXPECT`, word-bits 31:16. -/
def fieldExpect (w : Word) : BitVec 16 := w.extractLsb' 16 16

/-- The command an `OP` and the three flags select, once the word is known to be legal
(30_encoding.md R75 step 3). -/
def selectCommand (w : Word) : Option Instr :=
  match (fieldOp w).toNat with
  | 1 => some (.btob (fieldExpect w))
  | 2 => some .btoy
  | 3 => some (if fieldN w then .iencN else .ienc)
  | 4 => some .idec
  | 5 => some (if fieldV w then .decV else .dec)
  | 6 => some (if fieldR w then .encR else .enc)
  | _ => none

/-- The decoder, total on every word (30_encoding.md R76, R77): the clauses of R76 in the rule's order.
Whether the block has the marshaller is no property of the word; each meaning that needs it checks it. -/
def decode (w : Word) : DecodeResult :=
  if fieldReserved w ≠ 0 then .illegal .reservedBits
  else
    match selectCommand w with
    | none => .illegal .reservedOp
    | some i =>
      if fieldV w = true ∧ fieldOp w ≠ 5 then .illegal .flagV
      else if fieldR w = true ∧ fieldOp w ≠ 6 then .illegal .flagR
      else if fieldN w = true ∧ fieldOp w ≠ 3 then .illegal .flagN
      else if fieldExpect w ≠ 0 ∧ fieldOp w ≠ 1 then .illegal .expect
      else .command i

/-- `Legal(w)` on a block with or without the marshaller (30_encoding.md R76): the word decodes, to a
command this block has. -/
def legal (hasIlm : Bool) (w : Word) : Bool :=
  match decode w with
  | .command i => i.wellFormed hasIlm
  | .illegal _ => false

/-- The word of format `C` with the given fields (30_encoding.md R71: the pattern
`eeeeeeeeeeeeeeee000000000nrvoooo`), each field times the value of its lowest bit. -/
def commandWord (expect : BitVec 16) (n r v : Bool) (op : BitVec 4) : Word :=
  BitVec.ofNat 32 (expect.toNat * 65536 + n.toNat * 64 + r.toNat * 32 + v.toNat * 16 + op.toNat)

/-- The encoder: the word of a command (30_encoding.md R72, R74, R78). -/
def encode : Instr → Word
  | .btob e => commandWord e false false false 1
  | .btoy => commandWord 0 false false false 2
  | .ienc => commandWord 0 false false false 3
  | .iencN => commandWord 0 true false false 3
  | .idec => commandWord 0 false false false 4
  | .dec => commandWord 0 false false false 5
  | .decV => commandWord 0 false false true 5
  | .enc => commandWord 0 false false false 6
  | .encR => commandWord 0 false true false 6

/-- The command the decoder reads from the low `nbits` bits of `w`, every bit above them zero. Every row
of the table has 32 bits and one word. -/
def decodeTableWord (nbits w : Nat) : Option Instr :=
  match decode (BitVec.ofNat 32 (w % 2 ^ nbits)) with
  | .command i => some i
  | .illegal _ => none

end Sys2Proof
end

