-- ==== Sys2Proof/Machine/State.lean ====
section
/-! DEFINITION. Machine/State.lean: the state of the block and of its host, the reset state, and the
reasons a step can stop. Plain data throughout. -/

namespace Sys2Proof.Machine

/-- The contents of one buffer: pairs of an index and an element, indices strictly rising. An index that is
not listed has no value written to it (10_state.md R27, R36). For the byte buffers this is a list of
`Host.Cell`. -/
abbrev Memory (α : Type) := List (Nat × α)

/-- The canonical form: indices strictly rising. What an unlisted index reads as is "no value", so no
entry can equal it. -/
abbrev Memory.wf {α : Type} (m : Memory α) : Prop :=
  m.Pairwise fun a b => a.1 < b.1

/-- A buffer: its length register and its contents (10_state.md R21 to R27). -/
structure Buf (α : Type) where
  len : Word
  mem : Memory α
  deriving DecidableEq, Repr

/-- A record of `IREC`: eight `int32` words (10_state.md R24). -/
structure InRec where
  slot : Word
  pid  : Word
  st   : Word
  ego  : Five Word
  deriving DecidableEq, Repr

/-- A record of `OREC`: the eight words of `InRec` and `en`, 1 or 0 (10_state.md R25). -/
structure OutRec where
  slot : Word
  pid  : Word
  st   : Word
  ego  : Five Word
  en   : Word
  deriving DecidableEq, Repr

/-- The actions of the host (70_reset_and_hazards.md R167; 30_encoding.md R80; 10_state.md R28 to R32;
R160 for the reset; 95_test_vectors.md P5 for the record copy). -/
inductive HostAction where
  | writeReg (n : Nat) (v : Word)
  | readReg (n : Nat)
  | writeIb (i : Nat) (v : Byte)
  | writeIbit (i : Nat) (v : Bool)
  | writeIint (i : Nat) (v : Word)
  | writeIrec (i : Nat) (v : InRec)
  | setIb (l : List Byte)
  | setIbit (l : List Bool)
  | setIint (l : List Word)
  | setIrec (l : List InRec)
  | copyObToIb
  | copyOrecToIrec
  | readElem (b : Space) (i : Nat)
  | readBuf (b : Space)
  | reset
  deriving DecidableEq, Repr

/-- What a host read returned: a register's value, or elements of a buffer from index `first` on. -/
inductive Observation where
  | register (n : Nat) (v : Word)
  | bytes (b : Space) (first : Nat) (l : List Byte)
  | bits (b : Space) (first : Nat) (l : List Bool)
  | ints (b : Space) (first : Nat) (l : List Word)
  | inRecs (first : Nat) (l : List InRec)
  | outRecs (first : Nat) (l : List OutRec)
  deriving DecidableEq, Repr

/-- The state. `params`: the block's constants (00_scope.md R7), `CONFIG` among them (10_state.md R31).
The eight buffers with their length registers: R21 to R26, R32. `status`: R29. The last three fields are
the model's own: `script`, the host's remaining actions, oldest first, and `observed`, what its reads
returned, newest first (log entry 2); `resets`, how often the host reset the block (log entry 3). -/
structure State where
  params   : Params
  ib       : Buf Byte
  ibit     : Buf Bool
  iint     : Buf Word
  irec     : Buf InRec
  ob       : Buf Byte
  obit     : Buf Bool
  oint     : Buf Word
  orec     : Buf OutRec
  status   : Word
  script   : List HostAction
  observed : List Observation
  resets   : Nat
  deriving DecidableEq, Repr

/-- A buffer after reset: length 0, no element has a value (10_state.md R36). -/
def Buf.empty {α : Type} : Buf α := ⟨0, []⟩

/-- The reset state of a block with the given parameters (10_state.md R36; 70_reset_and_hazards.md R160). -/
def State.resetOf (p : Params) : State where
  params := p
  ib := Buf.empty
  ibit := Buf.empty
  iint := Buf.empty
  irec := Buf.empty
  ob := Buf.empty
  obit := Buf.empty
  oint := Buf.empty
  orec := Buf.empty
  status := 0
  script := []
  observed := []
  resets := 0

/-- The reset state of the one fixed block of 00_scope.md R7 (log entry 1), with no host action pending. -/
def State.reset : State := State.resetOf Params.standard

/-- Why the machine stops with a fault. No command raises one: the block's own faults are next states
(60_exceptions.md R149). -/
inductive Fault where
  /-- A host write of an element at or beyond the buffer's capacity, an index that does not exist
  (20_memory.md R50, 00_scope.md R7). Raised by the host actions `writeIb`, `writeIbit`, `writeIint`,
  `writeIrec`. Safe. -/
  | noSuchElement (b : Space) (i : Nat)
  deriving DecidableEq, Repr

/-- Why the model gives a host action no meaning. No command raises one. -/
inductive Refusal where
  /-- An instruction without a meaning. No arm of `exec` answers it. Safe. -/
  | notModelled (mnemonic : String)
  /-- A length above the capacity of an input buffer, written to its length register or by a SET or COPY
  (10_state.md R32: "the model should refuse such a launch rather than clamp"). Safe. -/
  | lengthAboveCapacity (b : Space)
  /-- A read or write of a register number above 10 (10_state.md R32). Safe. -/
  | noSuchRegister (n : Nat)
  /-- A host read of an element at or beyond the length register (10_state.md R27). Safe. -/
  | elementWithoutValue (b : Space) (i : Nat)
  /-- A host write of an element of `IINT` on a block without the marshaller (10_state.md R23: "Present
  only when `HAS_ILM`"). Safe. -/
  | absentBuffer (b : Space)
  deriving DecidableEq, Repr

end Sys2Proof.Machine
end

