-- ==== Sys2Proof/Machine/Flags.lean ====
section
/-! DEFINITION. Machine/Flags.lean: `STATUS`, its code and its one flag (10_state.md R29, R33). -/

namespace Sys2Proof.Machine

/-- The values of `STATUS.CODE` (10_state.md R29). -/
inductive StatusCode where
  | idle | ok | invalidInput | illegalCmd
  deriving DecidableEq, Repr

/-- The number of a status code (10_state.md R29). -/
def StatusCode.bits : StatusCode → BitVec 2
  | .idle => 0
  | .ok => 1
  | .invalidInput => 2
  | .illegalCmd => 3

/-- The whole register from its two fields; bits 31:3 are 0 (10_state.md R29). -/
def statusWord (c : StatusCode) (hadErr : Bool) : Word :=
  (0 : BitVec 29) ++ BitVec.ofBool hadErr ++ c.bits

/-- `STATUS.CODE`, bits 1:0. -/
def State.code (s : State) : BitVec 2 := s.status.extractLsb' 0 2

/-- `STATUS.HADERR`, bit 2. -/
def State.hadErr (s : State) : Bool := s.status.getLsbD 2

end Sys2Proof.Machine
end

