-- ==== Sys2Proof/Machine/Ops.lean ====
section
/-! DEFINITION. Machine/Ops.lean: the operations over buffers and registers, what every command does
first, and taking a fault. -/

namespace Sys2Proof.Machine

/-- The element at an index, if one was written there. -/
def Memory.read {α : Type} : Memory α → Nat → Option α
  | [], _ => none
  | (j, v) :: t, i => if j = i then some v else Memory.read t i

/-- Writing one element, keeping the indices strictly rising. -/
def Memory.write {α : Type} : Memory α → Nat → α → Memory α
  | [], i, v => [(i, v)]
  | (j, w) :: t, i, v =>
    if i < j then (i, v) :: (j, w) :: t
    else if i = j then (i, v) :: t
    else (j, w) :: Memory.write t i v

/-- Writing a sequence at successive indices from `k` on, over what is there. -/
def Memory.writeFrom {α : Type} : Memory α → Nat → List α → Memory α
  | m, _, [] => m
  | m, k, v :: l => Memory.writeFrom (Memory.write m k v) (k + 1) l

/-- The contents that hold exactly a sequence, from index `k` on. -/
def Memory.ofListFrom {α : Type} : Nat → List α → Memory α
  | _, [] => []
  | k, v :: l => (k, v) :: Memory.ofListFrom (k + 1) l

/-- An output buffer that holds exactly a sequence: elements from index 0 upward, the length register their
count (43_common_semantics.md R138). -/
def Buf.ofList {α : Type} (l : List α) : Buf α :=
  ⟨BitVec.ofNat 32 l.length, Memory.ofListFrom 0 l⟩

/-- `HOST SET`: the elements from index 0 on and their count (30_encoding.md R80). Elements beyond keep
what was written to them (log entry 3). -/
def Buf.set {α : Type} (b : Buf α) (l : List α) : Buf α :=
  ⟨BitVec.ofNat 32 l.length, Memory.writeFrom b.mem 0 l⟩

/-- The element of a buffer at an index below its length: what was last written there, or, where nothing
was, the free value given (10_state.md R36, log entry 3). -/
def Buf.elem {α : Type} (b : Buf α) (free : Nat → α) (i : Nat) : α :=
  (Memory.read b.mem i).getD (free i)

/-- The meaningful elements of a buffer: index 0 to its length minus 1 (10_state.md R27). -/
def Buf.seq {α : Type} (b : Buf α) (free : Nat → α) : List α :=
  (List.range b.len.toNat).map (b.elem free)

/-- `IINTLEN` as it reads: 0 on a block without the marshaller (10_state.md R32). -/
def State.iintLen (s : State) : Word := if s.params.hasIlm then s.iint.len else 0

/-- Step 1 of 30_encoding.md R75: all four output lengths 0, so that no output element has a value
(10_state.md R27, 70_reset_and_hazards.md R164), and `STATUS` = `OK` with `HADERR` = 0. -/
def beginCommand (s : State) : State :=
  { s with
    ob := Buf.empty
    obit := Buf.empty
    oint := Buf.empty
    orec := Buf.empty
    status := statusWord .ok false }

/-- TAKING A FAULT (60_exceptions.md R149): the outputs stay cleared, `STATUS.CODE` gets the code, nothing
else changes. There is no handler, no saved pc, no mode; and no return (R150): the next command simply
overwrites `STATUS`. -/
def takeFault (c : StatusCode) (s : State) : State :=
  { beginCommand s with status := statusWord c false }

/-- `raise InvalidInput()` (60_exceptions.md R142). -/
def raiseInvalidInput (s : State) : State := takeFault .invalidInput s

/-- `raise IllegalCommand()` (60_exceptions.md R143). -/
def raiseIllegalCommand (s : State) : State := takeFault .illegalCmd s

/-- A command of the marshaller: illegal on a block without it, before anything else (60_exceptions.md R143,
R148); otherwise the state given. -/
def needIlm (s : State) (done : State) : State :=
  if s.params.hasIlm then done else raiseIllegalCommand s

/-- A completed command whose result is the byte sequence `l` in `OB`. -/
def putOb (s : State) (l : List Byte) : State :=
  { beginCommand s with ob := Buf.ofList l }

/-- A completed command whose result is the bit sequence `l` in `OBIT`. -/
def putObit (s : State) (l : List Bool) : State :=
  { beginCommand s with obit := Buf.ofList l }

/-- A completed command whose result is the integer sequence `l` in `OINT`. -/
def putOint (s : State) (l : List Word) : State :=
  { beginCommand s with oint := Buf.ofList l }

/-- A completed command whose result is the records `l` in `OREC` and the flag `HADERR`. -/
def putOrec (s : State) (l : List OutRec) (hadErr : Bool) : State :=
  { beginCommand s with orec := Buf.ofList l, status := statusWord .ok hadErr }

/-- What a host read of register `n` returns (10_state.md R28 to R32); no value for a number above 10.
`CMD` reads 0; the reserved bits of `STATUS` and `CONFIG` read 0. -/
def readRegister (s : State) (n : Nat) : Option Word :=
  match n with
  | 0 => some 0
  | 1 => some (s.status &&& 7)
  | 2 => some (if s.params.hasIlm then 1 else 0)
  | 3 => some s.ib.len
  | 4 => some s.ibit.len
  | 5 => some s.iintLen
  | 6 => some s.irec.len
  | 7 => some s.ob.len
  | 8 => some s.obit.len
  | 9 => some s.oint.len
  | 10 => some s.orec.len
  | _ => none

/-- A host write of a register other than `CMD` (10_state.md R29, R31, R32): an input length within its
capacity is stored, one above it is refused; a write of a read-only register is ignored (log entry 7); a
number above 10 does not exist. A `CMD` write (number 0) runs a command and is not here. -/
def writeRegister (s : State) (n : Nat) (v : Word) : Host.Outcome State Fault Refusal :=
  match n with
  | 3 => if v.toNat ≤ s.params.ibCap then .next { s with ib := ⟨v, s.ib.mem⟩ }
         else .refused (.lengthAboveCapacity .ib)
  | 4 => if v.toNat ≤ s.params.ibitCap then .next { s with ibit := ⟨v, s.ibit.mem⟩ }
         else .refused (.lengthAboveCapacity .ibit)
  | 5 => if s.params.hasIlm then
           (if v.toNat ≤ s.params.iintCap then .next { s with iint := ⟨v, s.iint.mem⟩ }
            else .refused (.lengthAboveCapacity .iint))
         else .next s
  | 6 => if v.toNat ≤ s.params.irecCap then .next { s with irec := ⟨v, s.irec.mem⟩ }
         else .refused (.lengthAboveCapacity .irec)
  | _ => if n ≤ 10 then .next s else .refused (.noSuchRegister n)

end Sys2Proof.Machine
end

