-- ==== Sys2Proof/Machine/Operands.lean ====
section
/-! DEFINITION. Machine/Operands.lean: the input sequences of the commands, and the bit, byte, integer and
field functions they are defined by. -/

namespace Sys2Proof.Machine

/-- The five words in order, `ego[0]` first. -/
def Five.toList {α : Type} (f : Five α) : List α := [f.e0, f.e1, f.e2, f.e3, f.e4]

/-- The same function of each of the five. -/
def Five.map {α β : Type} (g : α → β) (f : Five α) : Five β :=
  ⟨g f.e0, g f.e1, g f.e2, g f.e3, g f.e4⟩

/-! ### The input sequences (10_state.md R21 to R24; 43_common_semantics.md R138) -/

/-- The free word `k` of a never-written record at index `i` (log entry 3). -/
def State.freeWord (s : State) (b : Space) (i k : Nat) : Word :=
  Config.unwrittenWord b s.resets i k

/-- A never-written record of `IREC`: eight free words (log entry 3). -/
def State.freeInRec (s : State) (i : Nat) : InRec where
  slot := s.freeWord .irec i 0
  pid := s.freeWord .irec i 1
  st := s.freeWord .irec i 2
  ego := ⟨s.freeWord .irec i 3, s.freeWord .irec i 4, s.freeWord .irec i 5, s.freeWord .irec i 6,
    s.freeWord .irec i 7⟩

/-- A never-written record of `OREC`: nine free words (log entry 3). No run reads one. -/
def State.freeOutRec (s : State) (i : Nat) : OutRec where
  slot := s.freeWord .orec i 0
  pid := s.freeWord .orec i 1
  st := s.freeWord .orec i 2
  ego := ⟨s.freeWord .orec i 3, s.freeWord .orec i 4, s.freeWord .orec i 5, s.freeWord .orec i 6,
    s.freeWord .orec i 7⟩
  en := s.freeWord .orec i 8

/-- `IB[0..IBLEN-1]`. -/
def State.ibSeq (s : State) : List Byte := s.ib.seq (Config.unwrittenByte .ib s.resets)

/-- `IBIT[0..IBITLEN-1]`. -/
def State.ibitSeq (s : State) : List Bool := s.ibit.seq (Config.unwrittenBit .ibit s.resets)

/-- `IINT[0..IINTLEN-1]`; none on a block without the marshaller (10_state.md R23, R32). -/
def State.iintSeq (s : State) : List Word :=
  if s.params.hasIlm then s.iint.seq (s.freeWord .iint · 0) else []

/-- `IREC[0..IRECLEN-1]`. -/
def State.irecSeq (s : State) : List InRec := s.irec.seq s.freeInRec

/-- `OB[0..OBLEN-1]`. -/
def State.obSeq (s : State) : List Byte := s.ob.seq (Config.unwrittenByte .ob s.resets)

/-- `OBIT[0..OBITLEN-1]`. -/
def State.obitSeq (s : State) : List Bool := s.obit.seq (Config.unwrittenBit .obit s.resets)

/-- `OINT[0..OINTLEN-1]`. -/
def State.ointSeq (s : State) : List Word := s.oint.seq (s.freeWord .oint · 0)

/-- `OREC[0..ORECLEN-1]`. -/
def State.orecSeq (s : State) : List OutRec := s.orec.seq s.freeOutRec

/-! ### Bytes and bits (20_memory.md R52; 40_byte_bit_adapter.md R91, R93) -/

/-- Bit `i` of the bit sequence of a byte sequence: byte `i >> 3`, word-bit `7 - (i & 7)`
(20_memory.md R52). -/
def streamBit (bs : List Byte) (i : Nat) : Bool :=
  (bs.getD (i >>> 3) 0).getLsbD (7 - (i &&& 7))

/-- The number of bits `BytesToBits` produces from `n` bytes (40_byte_bit_adapter.md R91). -/
def bitCount (n e : Nat) : Nat := if e = 0 then 8 * n else min e (8 * n)

/-- `BytesToBits(B, e)` (40_byte_bit_adapter.md R91). -/
def bytesToBits (bs : List Byte) (e : Nat) : List Bool :=
  (List.range (bitCount bs.length e)).map (streamBit bs)

/-- Byte `j` of `BitsToBytes`: eight bits from index `8j` on, a missing one 0, first bit most significant
(40_byte_bit_adapter.md R93). -/
def packByte (b : List Bool) (j : Nat) : Byte :=
  BitVec.ofNat 8 ((List.range 8).foldl (fun v t => 2 * v + (b.getD (8 * j + t) false).toNat) 0)

/-- `BitsToBytes(b)` (40_byte_bit_adapter.md R93). -/
def bitsToBytes (b : List Bool) : List Byte :=
  (List.range ((b.length + 7) / 8)).map (packByte b)

/-! ### Integers and bytes (20_memory.md R53; 41_integer_list_marshaller.md R101, R103) -/

/-- The four bytes of an `int32`, least significant first. -/
def wordBytes (u : Word) : List Byte :=
  [u.extractLsb' 0 8, u.extractLsb' 8 8, u.extractLsb' 16 8, u.extractLsb' 24 8]

/-- `IntsToBytes(v)` (41_integer_list_marshaller.md R101). -/
def intsToBytes (v : List Word) : List Byte := v.flatMap wordBytes

/-- `MemRead(B, a, 4)` (00_scope.md R11). -/
def memRead4 (bs : List Byte) (a : Nat) : Nat :=
  (bs.getD a 0).toNat + 256 * (bs.getD (a + 1) 0).toNat + 65536 * (bs.getD (a + 2) 0).toNat +
    16777216 * (bs.getD (a + 3) 0).toNat

/-- `BytesToInts(B)` (41_integer_list_marshaller.md R103); `sext_32` of a 32-bit number is the word with
that pattern (00_scope.md R11). -/
def bytesToInts (bs : List Byte) : List Word :=
  (List.range (bs.length / 4)).map fun j => BitVec.ofNat 32 (memRead4 bs (4 * j))

/-! ### Fields of the 553-bit stream (42_formation_field_packer.md R113, R114) -/

/-- `Field(x, w)`: the `w` bits of `x`, most significant first (R113). -/
def field (x w : Nat) : List Bool := (List.range w).map fun t => x.testBit (w - 1 - t)

/-- `ReadField(b, L, c, w)`: the value and the new cursor; an index at or beyond the end of the sequence
contributes nothing, and the cursor advances by `w` regardless (R114; 90_conflicts.md C4). -/
def readField (b : List Bool) (c w : Nat) : Nat × Nat :=
  ((List.range w).foldl
    (fun x t => match b[c + t]? with
      | some bit => 2 * x + bit.toNat
      | none => x) 0,
   c + w)

/-! ### Identifiers and the slot type (42_formation_field_packer.md R115, R116, R127) -/

/-- `Mod(id)` (R115): the low two decimal digits of a positive identifier, else 0. -/
def modulus (id : Word) : Nat := if 0 < id.toInt then id.toNat % 100 else 0

/-- `Expand(s, m, nb)` (R116). -/
def expand (s m nb : Nat) : Nat := if 0 < m then m + nb + 100 * s else 0

/-- The entry of a list of exceptions for a word, if there is one. -/
def low4Entry : List (Word × BitVec 4) → Word → Option (BitVec 4)
  | [], _ => none
  | (a, v) :: t, x => if a = x then some v else low4Entry t x

/-- `Low4(st)` (R127): the identity on 0 to 15; outside, the low four bits, or what the block's parameter
says instead (93_implementation_defined.md U2, log entry 5). -/
def low4 (p : Params) (st : Word) : BitVec 4 :=
  if st.toNat ≤ 15 then st.extractLsb' 0 4
  else (low4Entry p.low4Outside st).getD (st.extractLsb' 0 4)

end Sys2Proof.Machine
end

