-- ==== Sys2Proof/Machine/ByteBit.lean ====
section
/-! DEFINITION. Machine/ByteBit.lean: the commands of the byte-bit adapter (40_byte_bit_adapter.md). -/

namespace Sys2Proof.Machine

/-- `BTOB e` (40_byte_bit_adapter.md R91; the immediate zero-extended, 30_encoding.md R73). -/
def execBtob (expect : BitVec 16) (s : State) : Host.Outcome State Fault Refusal :=
  .next (putObit s (bytesToBits s.ibSeq expect.toNat))

/-- `BTOY` (40_byte_bit_adapter.md R93). -/
def execBtoy (s : State) : Host.Outcome State Fault Refusal :=
  .next (putOb s (bitsToBytes s.ibitSeq))

end Sys2Proof.Machine
end

