-- ==== Sys2Proof/Machine/Marshaller.lean ====
section
/-! DEFINITION. Machine/Marshaller.lean: the commands of the integer-list marshaller
(41_integer_list_marshaller.md). -/

namespace Sys2Proof.Machine

/-- `IENC` (41_integer_list_marshaller.md R101). -/
def execIenc (s : State) : Host.Outcome State Fault Refusal :=
  .next (needIlm s (putOb s (intsToBytes s.iintSeq)))

/-- `IENC.N` (41_integer_list_marshaller.md R102): the list is absent, `InvalidInput` is taken; on a block
without the marshaller `IllegalCommand` comes first (60_exceptions.md R148). -/
def execIencN (s : State) : Host.Outcome State Fault Refusal :=
  .next (needIlm s (raiseInvalidInput s))

/-- `IDEC` (41_integer_list_marshaller.md R103). -/
def execIdec (s : State) : Host.Outcome State Fault Refusal :=
  .next (needIlm s (putOint s (bytesToInts s.ibSeq)))

end Sys2Proof.Machine
end

