-- ==== Sys2Proof/Machine/Packer.lean ====
section
/-! DEFINITION. Machine/Packer.lean: the commands of the formation field packer
(42_formation_field_packer.md). -/

namespace Sys2Proof.Machine

/-! ### Decoding -/

/-- The raw fields of one slot group (42_formation_field_packer.md R110, R112). -/
structure SlotFields where
  pm : Nat
  st : Nat
  em : Five Nat
  deriving DecidableEq, Repr

/-- The seven field reads of one slot group from cursor `c`, each from where the one before it left the
cursor (R118): the fields, and the cursor after them. -/
def readSlot (b : List Bool) (c : Nat) : SlotFields × Nat :=
  let pm := readField b c 7
  let st := readField b pm.2 4
  let e0 := readField b st.2 7
  let e1 := readField b e0.2 7
  let e2 := readField b e1.2 7
  let e3 := readField b e2.2 7
  let e4 := readField b e3.2 7
  (⟨pm.1, st.1, ⟨e0.1, e1.1, e2.1, e3.1, e4.1⟩⟩, e4.2)

/-- A slot's values on their way out, and the deck's error flag so far (R118, R120). -/
structure SlotValues where
  pid : Nat
  st  : Nat
  ego : Five Nat
  err : Bool
  deriving DecidableEq, Repr

/-- The identifiers of slot `s` rebuilt from its moduli, before any validation (R116, R118). -/
def expandSlot (s : Nat) (f : SlotFields) (err : Bool) : SlotValues where
  pid := expand s f.pm 10000
  st := f.st
  ego := Five.map (fun m => expand s m 20000) f.em
  err := err

/-- One check of the validation pass (R120): a value outside `lo` to `hi` whose field counts is reset to 0
and marks an error. -/
def outOfRange (counts : Bool) (lo hi v : Nat) : Bool := counts && !(decide (lo ≤ v) && decide (v ≤ hi))

/-- The value after one check of R120. -/
def checkedValue (counts : Bool) (lo hi v : Nat) : Nat := if outOfRange counts lo hi v then 0 else v

/-- `Validate` (R120): the personality where its modulus is positive, each equipment identifier where its
modulus is positive, the slot type always; the error flag accumulates. -/
def validate (f : SlotFields) (v : SlotValues) : SlotValues where
  pid := checkedValue (decide (0 < f.pm)) 10000 99999 v.pid
  ego := ⟨checkedValue (decide (0 < f.em.e0)) 20000 99999 v.ego.e0,
    checkedValue (decide (0 < f.em.e1)) 20000 99999 v.ego.e1,
    checkedValue (decide (0 < f.em.e2)) 20000 99999 v.ego.e2,
    checkedValue (decide (0 < f.em.e3)) 20000 99999 v.ego.e3,
    checkedValue (decide (0 < f.em.e4)) 20000 99999 v.ego.e4⟩
  st := checkedValue true 0 15 v.st
  err := v.err || outOfRange (decide (0 < f.pm)) 10000 99999 v.pid
    || outOfRange (decide (0 < f.em.e0)) 20000 99999 v.ego.e0
    || outOfRange (decide (0 < f.em.e1)) 20000 99999 v.ego.e1
    || outOfRange (decide (0 < f.em.e2)) 20000 99999 v.ego.e2
    || outOfRange (decide (0 < f.em.e3)) 20000 99999 v.ego.e3
    || outOfRange (decide (0 < f.em.e4)) 20000 99999 v.ego.e4
    || outOfRange true 0 15 v.st

/-- The emission test (R121): one of the six moduli as read is positive. -/
def emitted (f : SlotFields) : Bool :=
  decide (0 < f.pm) || (Five.toList f.em).any fun m => decide (0 < m)

/-- The record of slot `s` (R118), with the enabled bit of R122. -/
def slotRecord (s : Nat) (v : SlotValues) : OutRec where
  slot := BitVec.ofNat 32 s
  pid := BitVec.ofNat 32 v.pid
  st := BitVec.ofNat 32 v.st
  ego := Five.map (BitVec.ofNat 32) v.ego
  en := if 0 < v.st then 1 else 0

/-- What a deck decode leaves: the emitted records, the error flag, and where the cursor stopped. -/
structure DeckResult where
  recs   : List OutRec
  err    : Bool
  cursor : Nat
  deriving DecidableEq, Repr

/-- The loop of R118 over `n` slots from slot `s` on, at cursor `c`, with the error flag so far. -/
def decodeSlots (valid : Bool) (b : List Bool) : Nat → Nat → Nat → Bool → DeckResult
  | 0, _, c, err => ⟨[], err, c⟩
  | n + 1, s, c, err =>
    let f := (readSlot b c).1
    let v := if valid then validate f (expandSlot s f err) else expandSlot s f err
    let rest := decodeSlots valid b n (s + 1) (readSlot b c).2 v.err
    ⟨if emitted f then slotRecord s v :: rest.recs else rest.recs, rest.err, rest.cursor⟩

/-- `DEC` on a payload (R118): the empty payload gives nothing (R119); else twelve slots from bit index 1 of
its first 553 bits. -/
def decodeDeck (valid : Bool) (bs : List Byte) : DeckResult :=
  if bs.length = 0 then ⟨[], false, 1⟩
  else decodeSlots valid (bytesToBits bs 553) 12 1 1 false

/-- `DEC` and `DEC.V` alike, up to the flag (R118). -/
def runDecode (valid : Bool) (s : State) : State :=
  let d := decodeDeck valid s.ibSeq
  putOrec s d.recs d.err

/-- `DEC` (42_formation_field_packer.md R118, `V` = 0). -/
def execDec (s : State) : Host.Outcome State Fault Refusal := .next (runDecode false s)

/-- `DEC.V` (42_formation_field_packer.md R118 with R120, `V` = 1). -/
def execDecV (s : State) : Host.Outcome State Fault Refusal := .next (runDecode true s)

/-! ### Encoding, standard path -/

/-- The all-zero virtual slot (R125). -/
def virtualSlot : InRec := ⟨0, 0, 0, ⟨0, 0, 0, 0, 0⟩⟩

/-- Filing one record under the key `k` (R126): a record whose `slot` is `k` takes the place, unless the
policy keeps the first and one is there already. -/
def fileRecord (pol : DupPolicy) (k : Nat) (held : Option InRec) (r : InRec) : Option InRec :=
  if r.slot.toInt = k then
    match pol, held with
    | .first, some h => some h
    | .first, none => some r
    | .last, _ => some r
  else held

/-- The positional map at slot `k` (R125, R126). A `slot` outside 1 to 12 is never asked for. -/
def positional (pol : DupPolicy) (recs : List InRec) (k : Nat) : InRec :=
  (recs.foldl (fileRecord pol k) none).getD virtualSlot

/-- The 46 bits of one slot group (R110, R125). -/
def slotGroup (p : Params) (r : InRec) : List Bool :=
  field (modulus r.pid) 7 ++ field (low4 p r.st).toNat 4 ++
    (Five.toList r.ego).flatMap fun id => field (modulus id) 7

/-- The 553-bit stream (R110, R125): the reserved bit 1 (R117), then the groups of slots 1 to 12. -/
def deckStream (p : Params) (recs : List InRec) : List Bool :=
  true :: (List.range 12).flatMap fun k => slotGroup p (positional p.dupPolicy recs (k + 1))

/-- The payload of the standard path (R125); nothing for an empty list (R128). -/
def encodeDeck (p : Params) (recs : List InRec) : List Byte :=
  if recs.length = 0 then [] else bitsToBytes (deckStream p recs)

/-- `ENC` (42_formation_field_packer.md R125). -/
def execEnc (s : State) : Host.Outcome State Fault Refusal :=
  .next (putOb s (encodeDeck s.params s.irecSeq))

/-! ### Encoding, out-of-rule path -/

/-- The seven integers of a record, without its `slot` word (R131). -/
def recordInts (r : InRec) : List Word := r.pid :: r.st :: Five.toList r.ego

/-- `ENC.R` (42_formation_field_packer.md R131); an empty list gives no byte (R128). -/
def execEncR (s : State) : Host.Outcome State Fault Refusal :=
  .next (needIlm s (putOb s (intsToBytes (s.irecSeq.flatMap recordInts))))

end Sys2Proof.Machine
end

