-- ==== Sys2Proof/Machine/Dispatch.lean ====
section
/-! DEFINITION. Machine/Dispatch.lean: one arm per command (30_encoding.md R75 step 3). -/

namespace Sys2Proof.Machine

def exec (i : Instr) (s : State) : Host.Outcome State Fault Refusal :=
  match i with
  | .btob expect => Sys2Proof.Machine.execBtob expect s
  | .btoy => Sys2Proof.Machine.execBtoy s
  | .ienc => Sys2Proof.Machine.execIenc s
  | .iencN => Sys2Proof.Machine.execIencN s
  | .idec => Sys2Proof.Machine.execIdec s
  | .dec => Sys2Proof.Machine.execDec s
  | .decV => Sys2Proof.Machine.execDecV s
  | .enc => Sys2Proof.Machine.execEnc s
  | .encR => Sys2Proof.Machine.execEncR s

end Sys2Proof.Machine
end

