-- ==== Sys2Proof/Machine/HostActions.lean ====
section
/-! DEFINITION. Machine/HostActions.lean: what one host action does (70_reset_and_hazards.md R167;
30_encoding.md R75, R80; 10_state.md R27 to R32). -/

namespace Sys2Proof.Machine

/-- A host write of `w` to `CMD` (10_state.md R28; 30_encoding.md R75): the command it encodes runs to
completion, a word that encodes none is an illegal command. -/
def runCommand (w : Word) (s : State) : Host.Outcome State Fault Refusal :=
  match decode w with
  | .command i => exec i s
  | .illegal _ => .next (raiseIllegalCommand s)

/-- A host read answered with `o`; nothing of the block changes (20_memory.md R57). -/
def observe (o : Observation) (s : State) : Host.Outcome State Fault Refusal :=
  .next { s with observed := o :: s.observed }

/-- A host read of register `n` (10_state.md R28 to R32). -/
def hostReadReg (n : Nat) (s : State) : Host.Outcome State Fault Refusal :=
  match readRegister s n with
  | some v => observe (.register n v) s
  | none => .refused (.noSuchRegister n)

/-- A host write of register `n`; register 0 is `CMD` (10_state.md R28 to R32). -/
def hostWriteReg (n : Nat) (v : Word) (s : State) : Host.Outcome State Fault Refusal :=
  if n = 0 then runCommand v s else writeRegister s n v

/-- The length of a buffer as the host reads it (10_state.md R32). -/
def State.lenOf (s : State) : Space → Nat
  | .ib => s.ib.len.toNat
  | .ibit => s.ibit.len.toNat
  | .iint => s.iintLen.toNat
  | .irec => s.irec.len.toNat
  | .ob => s.ob.len.toNat
  | .obit => s.obit.len.toNat
  | .oint => s.oint.len.toNat
  | .orec => s.orec.len.toNat

/-- What the host sees of a buffer's elements from index `i` on, at most `k` of them, all below the length
(10_state.md R27, 20_memory.md R59). -/
def State.look (s : State) (b : Space) (i k : Nat) : Observation :=
  match b with
  | .ib => .bytes .ib i ((s.ibSeq.drop i).take k)
  | .ibit => .bits .ibit i ((s.ibitSeq.drop i).take k)
  | .iint => .ints .iint i ((s.iintSeq.drop i).take k)
  | .irec => .inRecs i ((s.irecSeq.drop i).take k)
  | .ob => .bytes .ob i ((s.obSeq.drop i).take k)
  | .obit => .bits .obit i ((s.obitSeq.drop i).take k)
  | .oint => .ints .oint i ((s.ointSeq.drop i).take k)
  | .orec => .outRecs i ((s.orecSeq.drop i).take k)

/-- A host read of one element; at or beyond the length there is no value (10_state.md R27). -/
def hostReadElem (b : Space) (i : Nat) (s : State) : Host.Outcome State Fault Refusal :=
  if i < s.lenOf b then observe (s.look b i 1) s else .refused (.elementWithoutValue b i)

/-- A host read of a whole buffer, index 0 to its length minus 1 (30_encoding.md R80). -/
def hostReadBuf (b : Space) (s : State) : Host.Outcome State Fault Refusal :=
  observe (s.look b 0 (s.lenOf b)) s

/-- A host write of one byte of `IB` (20_memory.md R50); the length register is not touched. -/
def hostWriteIb (i : Nat) (v : Byte) (s : State) : Host.Outcome State Fault Refusal :=
  if i < s.params.ibCap then .next { s with ib := ⟨s.ib.len, Memory.write s.ib.mem i v⟩ }
  else .fault (.noSuchElement .ib i)

/-- A host write of one bit of `IBIT`. -/
def hostWriteIbit (i : Nat) (v : Bool) (s : State) : Host.Outcome State Fault Refusal :=
  if i < s.params.ibitCap then .next { s with ibit := ⟨s.ibit.len, Memory.write s.ibit.mem i v⟩ }
  else .fault (.noSuchElement .ibit i)

/-- A host write of one integer of `IINT`, present only with the marshaller (10_state.md R23). -/
def hostWriteIint (i : Nat) (v : Word) (s : State) : Host.Outcome State Fault Refusal :=
  if s.params.hasIlm then
    (if i < s.params.iintCap then .next { s with iint := ⟨s.iint.len, Memory.write s.iint.mem i v⟩ }
     else .fault (.noSuchElement .iint i))
  else .refused (.absentBuffer .iint)

/-- A host write of one record of `IREC`. -/
def hostWriteIrec (i : Nat) (v : InRec) (s : State) : Host.Outcome State Fault Refusal :=
  if i < s.params.irecCap then .next { s with irec := ⟨s.irec.len, Memory.write s.irec.mem i v⟩ }
  else .fault (.noSuchElement .irec i)

/-- `HOST SET IB` (30_encoding.md R80). -/
def hostSetIb (l : List Byte) (s : State) : Host.Outcome State Fault Refusal :=
  if l.length ≤ s.params.ibCap then .next { s with ib := s.ib.set l }
  else .refused (.lengthAboveCapacity .ib)

/-- `HOST SET IBIT` (30_encoding.md R80). -/
def hostSetIbit (l : List Bool) (s : State) : Host.Outcome State Fault Refusal :=
  if l.length ≤ s.params.ibitCap then .next { s with ibit := s.ibit.set l }
  else .refused (.lengthAboveCapacity .ibit)

/-- `HOST SET IINT` (30_encoding.md R80); without the marshaller a write of the count is ignored and there
is no element to write (10_state.md R23, R32). -/
def hostSetIint (l : List Word) (s : State) : Host.Outcome State Fault Refusal :=
  if s.params.hasIlm then
    (if l.length ≤ s.params.iintCap then .next { s with iint := s.iint.set l }
     else .refused (.lengthAboveCapacity .iint))
  else if l.length = 0 then .next s
  else .refused (.absentBuffer .iint)

/-- `HOST SET IREC` (30_encoding.md R80). -/
def hostSetIrec (l : List InRec) (s : State) : Host.Outcome State Fault Refusal :=
  if l.length ≤ s.params.irecCap then .next { s with irec := s.irec.set l }
  else .refused (.lengthAboveCapacity .irec)

/-- The words of an output record the host copies into an input record (95_test_vectors.md P5). -/
def OutRec.toInRec (r : OutRec) : InRec := ⟨r.slot, r.pid, r.st, r.ego⟩

/-- A host reset (70_reset_and_hazards.md R160): the block is as after power-on; the host goes on with its
script and keeps what it observed. -/
def hostReset (s : State) : State :=
  { State.resetOf s.params with script := s.script, observed := s.observed, resets := s.resets + 1 }

/-- One host action. -/
def act (a : HostAction) (s : State) : Host.Outcome State Fault Refusal :=
  match a with
  | .writeReg n v => hostWriteReg n v s
  | .readReg n => hostReadReg n s
  | .writeIb i v => hostWriteIb i v s
  | .writeIbit i v => hostWriteIbit i v s
  | .writeIint i v => hostWriteIint i v s
  | .writeIrec i v => hostWriteIrec i v s
  | .setIb l => hostSetIb l s
  | .setIbit l => hostSetIbit l s
  | .setIint l => hostSetIint l s
  | .setIrec l => hostSetIrec l s
  | .copyObToIb => hostSetIb s.obSeq s
  | .copyOrecToIrec => hostSetIrec (s.orecSeq.map OutRec.toInRec) s
  | .readElem b i => hostReadElem b i s
  | .readBuf b => hostReadBuf b s
  | .reset => .next (hostReset s)

/-- One step: the host's next action; with none left the block is quiescent (70_reset_and_hazards.md
R167). -/
def stepScript (s : State) : Host.Outcome State Fault Refusal :=
  match s.script with
  | [] => .next s
  | a :: rest => act a { s with script := rest }

/-- `s` with a write of the word made of the low `nbits` bits of `w` to `CMD` as the host's next action. -/
def withCommandWord (s : State) (nbits w : Nat) : State :=
  { s with script := .writeReg 0 (BitVec.ofNat 32 (w % 2 ^ nbits)) :: s.script }

end Sys2Proof.Machine
end

