-- ==== Sys2Proof/Machine/Step.lean ====
section
/-! DEFINITION. Machine/Step.lean: one step of the machine. -/

namespace Sys2Proof.Machine

/-- One step: the block and its host take the host's next action (00_scope.md R6). -/
def step (s : State) : Host.Outcome State Fault Refusal := stepScript s

/-- `s` with a `CMD` write of the given word as its very next step (log entry 2). -/
def State.withFetchWord (s : State) (nbits w : Nat) : State := withCommandWord s nbits w

end Sys2Proof.Machine
end

