-- ==== Sys2Proof/Safety.lean ====
section
/-! DEFINITION. Safety.lean: the launches the spec allows, the invariant of the machine, and runs of host
actions, in the terms the claims use. -/

namespace Sys2Proof.Safety

open Sys2Proof.Machine

/-- Every input length is within its capacity, on a block whose parameters are legal
(00_scope.md R7; 10_state.md R32): a well-formed launch. -/
abbrev launchOk (s : State) : Prop :=
  s.params.legal ∧ s.ib.len.toNat ≤ s.params.ibCap ∧ s.ibit.len.toNat ≤ s.params.ibitCap ∧
  s.iint.len.toNat ≤ s.params.iintCap ∧ s.irec.len.toNat ≤ s.params.irecCap

/-- Every output length is within its capacity (10_state.md R32). -/
abbrev outputLengthsOk (s : State) : Prop :=
  s.ob.len.toNat ≤ s.params.obCap ∧ s.obit.len.toNat ≤ s.params.obitCap ∧
  s.oint.len.toNat ≤ s.params.ointCap ∧ s.orec.len.toNat ≤ 12

/-- Contents in canonical form, every index below the capacity `n`. -/
abbrev contentsOk {α : Type} (m : Memory α) (n : Nat) : Prop := Memory.wf m ∧ ∀ e ∈ m, e.1 < n

/-- The contents of an output buffer are exactly its elements below the length (10_state.md R27). -/
abbrev outputExact {α : Type} (b : Buf α) : Prop := b.mem.map Prod.fst = List.range b.len.toNat

/-- The contents of all eight buffers are in canonical form and exist. -/
abbrev buffersOk (s : State) : Prop :=
  contentsOk s.ib.mem s.params.ibCap ∧ contentsOk s.ibit.mem s.params.ibitCap ∧
  contentsOk s.iint.mem s.params.iintCap ∧ contentsOk s.irec.mem s.params.irecCap ∧
  outputExact s.ob ∧ outputExact s.obit ∧ outputExact s.oint ∧ outputExact s.orec

/-- `STATUS`: the reserved bits are 0 (10_state.md R29), `HADERR` is 0 (42_formation_field_packer.md R123),
and unless the code is `OK` no output buffer has an element (60_exceptions.md R140; 10_state.md R36). -/
abbrev statusOk (s : State) : Prop :=
  s.status.extractLsb' 3 29 = 0 ∧ s.hadErr = false ∧
  (s.code ≠ 1 → s.ob = Buf.empty ∧ s.obit = Buf.empty ∧ s.oint = Buf.empty ∧ s.orec = Buf.empty)

/-- A block without the marshaller has no `IINT` and no `OINT` (10_state.md R23, R26, R32). -/
abbrev absentUnitOk (s : State) : Prop :=
  s.params.hasIlm = false → s.iint = Buf.empty ∧ s.oint = Buf.empty

/-- An identifier of an output record: 0, or in the given range (10_state.md R25). -/
abbrev zeroOrIn (lo hi : Nat) (v : Word) : Prop := v = 0 ∨ (lo ≤ v.toNat ∧ v.toNat ≤ hi)

/-- The ranges of an output record (10_state.md R25). -/
abbrev outRecOk (r : OutRec) : Prop :=
  1 ≤ r.slot.toNat ∧ r.slot.toNat ≤ 12 ∧ zeroOrIn 10101 11327 r.pid ∧
  (∀ e ∈ Five.toList r.ego, zeroOrIn 20101 21327 e) ∧ r.st.toNat ≤ 15 ∧
  r.en = if 0 < r.st.toNat then 1 else 0

/-- `OREC`: every record in range, slots strictly ascending (10_state.md R25). -/
abbrev recordsOk (s : State) : Prop :=
  (∀ e ∈ s.orec.mem, outRecOk e.2) ∧ s.orec.mem.Pairwise fun a b => a.2.slot.toNat < b.2.slot.toNat

/-- The invariant of the machine: every step keeps it. -/
abbrev Inv (s : State) : Prop :=
  launchOk s ∧ outputLengthsOk s ∧ buffersOk s ∧ statusOk s ∧ absentUnitOk s ∧ recordsOk s

/-- No two records share a `slot` word in 1 to 12: the launch the data model allows
(42_formation_field_packer.md R126; 93_implementation_defined.md U3, "unique keys in 1 to 12 among the records
with keys in 1 to 12"). The model gives `ENC` a meaning without it too. -/
abbrev uniqueKeys (recs : List InRec) : Prop :=
  recs.Pairwise fun a b => 1 ≤ a.slot.toInt → a.slot.toInt ≤ 12 → a.slot ≠ b.slot

/-- A record whose identifiers `ENC` and `DEC` carry unchanged: key 1 to 12, slot type 0 to 15, each
identifier 0 or base + 100 * slot + m with m in 1 to 99 (42_formation_field_packer.md R133). -/
abbrev carried (r : InRec) : Prop :=
  1 ≤ r.slot.toNat ∧ r.slot.toNat ≤ 12 ∧ r.st.toNat ≤ 15 ∧
  (r.pid = 0 ∨ (10000 + 100 * r.slot.toNat + 1 ≤ r.pid.toNat ∧ r.pid.toNat ≤ 10000 + 100 * r.slot.toNat + 99)) ∧
  ∀ e ∈ Five.toList r.ego,
    e = 0 ∨ (20000 + 100 * r.slot.toNat + 1 ≤ e.toNat ∧ e.toNat ≤ 20000 + 100 * r.slot.toNat + 99)

/-- `s` with the four output buffers and `STATUS` as given and NOTHING else changed: parameters, input
buffers and lengths, the host's script and observations are those of `s` (10_state.md R35, R37). -/
def outcome (s : State) (ob : Buf Byte) (obit : Buf Bool) (oint : Buf Word) (orec : Buf OutRec)
    (status : Word) : State :=
  { s with ob := ob, obit := obit, oint := oint, orec := orec, status := status }

/-- A run (70_reset_and_hazards.md R167): the host actions `l` from `s`, one step each. -/
def run (s : State) (l : List HostAction) : Host.Outcome State Fault Refusal :=
  Host.Core.run Sys2Proof.core l.length { s with script := l }

/-- The host action that writes a command's word to `CMD` (10_state.md R28). -/
def issue (i : Instr) : HostAction := .writeReg 0 (encode i)

end Sys2Proof.Safety
end

