-- ==== Sys2Proof/Certificates/Slice0/Obligations.lean ====
section
/-! DEFINITION. Certificates/Slice0/Obligations.lean: the statements about the machine, for the provers. -/

open Sys2Proof Sys2Proof.Machine Sys2Proof.Safety

/-! ### The command word -/

/-- 30_encoding.md R76, R77, R78: the decoder accepts exactly the encoder's words, each with one meaning. -/
def Obligations.DecodeAcceptsExactlyEncodedWords : Prop :=
  ∀ (w : Word) (i : Instr), decode w = .command i ↔ w = encode i

/-- 30_encoding.md R76: `Legal(w)` clause by clause, the list of legal words with and without the
marshaller, and what an illegal word does. -/
def Obligations.LegalWordsAreExactlyThoseOfR76 : Prop :=
  (∀ (h : Bool) (w : Word),
    legal h w = true ↔
      w.toNat / 128 % 512 = 0 ∧ (1 ≤ w.toNat % 16 ∧ w.toNat % 16 ≤ 6) ∧
      (w.toNat / 16 % 2 = 0 ∨ w.toNat % 16 = 5) ∧ (w.toNat / 32 % 2 = 0 ∨ w.toNat % 16 = 6) ∧
      (w.toNat / 64 % 2 = 0 ∨ w.toNat % 16 = 3) ∧ (w.toNat / 65536 = 0 ∨ w.toNat % 16 = 1) ∧
      (h = false → w.toNat % 16 ≠ 3 ∧ w.toNat % 16 ≠ 4 ∧ ¬ (w.toNat % 16 = 6 ∧ w.toNat / 32 % 2 = 1))) ∧
  (∀ w : Word,
    (legal true w = true ↔ w.toNat % 65536 = 1 ∨
      w.toNat ∈ [0x00000002, 0x00000003, 0x00000043, 0x00000004, 0x00000005, 0x00000015, 0x00000006, 0x00000026]) ∧
    (legal false w = true ↔ w.toNat % 65536 = 1 ∨
      w.toNat ∈ [0x00000002, 0x00000005, 0x00000015, 0x00000006])) ∧
  (∀ (s : State) (w : Word) (rest : List HostAction),
    s.script = .writeReg 0 w :: rest → legal s.params.hasIlm w = false →
      ∃ t, step s = .next t ∧ t.code = 3)

/-- 30_encoding.md R78 and 95_test_vectors.md: words written out from the encoding, and what they are. -/
def Obligations.WordsWrittenOutDecodeAsTheTableSays : Prop :=
  decode 0x00090001 = .command (.btob 9) ∧ decode 0x02290001 = .command (.btob 553) ∧
  decode 0x00000002 = .command .btoy ∧ decode 0x00000003 = .command .ienc ∧
  decode 0x00000043 = .command .iencN ∧ decode 0x00000004 = .command .idec ∧
  decode 0x00000005 = .command .dec ∧ decode 0x00000015 = .command .decV ∧
  decode 0x00000006 = .command .enc ∧ decode 0x00000026 = .command .encR ∧
  decode 0x00000000 = .illegal .reservedOp ∧ decode 0x00010002 = .illegal .expect ∧
  decode 0x00000012 = .illegal .flagV ∧ decode 0x00000025 = .illegal .flagR ∧
  decode 0x00000044 = .illegal .flagN ∧ decode 0x00008001 = .illegal .reservedBits

/-- 10_state.md R28, 30_encoding.md R75: when the host's next action writes a word to `CMD` and the word
decodes to a command, the step is that command, on the state with the action taken off the script. -/
def Obligations.CmdWriteRunsTheDecodedCommand : Prop :=
  ∀ (s : State) (w : Word) (i : Instr) (rest : List HostAction),
    s.script = .writeReg 0 w :: rest → decode w = .command i →
      step s = exec i { s with script := rest }

/-! ### Every command -/

/-- 60_exceptions.md R140, R141, R148: the three outcome classes of a `CMD` write, told apart by
`STATUS.CODE`; a fault does nothing but clear the outputs and set the code. -/
def Obligations.CommandEndsInOneOfThreeClasses : Prop :=
  ∀ (s : State) (w : Word), ∃ t, runCommand w s = .next t ∧
    (legal s.params.hasIlm w = false →
      t = outcome s Buf.empty Buf.empty Buf.empty Buf.empty 3) ∧
    (legal s.params.hasIlm w = true → w = 0x00000043 →
      t = outcome s Buf.empty Buf.empty Buf.empty Buf.empty 2) ∧
    (legal s.params.hasIlm w = true → w ≠ 0x00000043 → t.code = 1) ∧
    t.hadErr = false

/-- 60_exceptions.md R142 and 41_integer_list_marshaller.md R102: `IENC.N` takes `InvalidInput` and reads
nothing. -/
def Obligations.AbsentListTakesInvalidInput : Prop :=
  decode 0x00000043 = .command .iencN ∧
  ∀ s : State, s.params.hasIlm = true →
    exec .iencN s = .next (outcome s Buf.empty Buf.empty Buf.empty Buf.empty 2)

/-- 60_exceptions.md R143, R148: without the marshaller its four commands take `IllegalCommand`, `IENC.N`
among them. -/
def Obligations.MarshallerCommandsAreIllegalWithoutTheUnit : Prop :=
  ∀ (s : State) (i : Instr), s.params.hasIlm = false → i ∈ [.ienc, .iencN, .idec, .encR] →
    exec i s = .next (outcome s Buf.empty Buf.empty Buf.empty Buf.empty 3)

/-- 10_state.md R35: no `CMD` write, legal or not, changes an input buffer or an input length; nor does it
touch the block's parameters or the host. -/
def Obligations.CommandsLeaveInputsAlone : Prop :=
  ∀ (s : State) (w : Word), ∃ t, runCommand w s = .next t ∧
    t.ib = s.ib ∧ t.ibit = s.ibit ∧ t.iint = s.iint ∧ t.irec = s.irec ∧ t.params = s.params ∧
    t.script = s.script ∧ t.observed = s.observed ∧ t.resets = s.resets

/-- 10_state.md R20, R27; 70_reset_and_hazards.md R165: what a command leaves in the outputs and `STATUS` is a
function of the command word, the elements of the input buffers below their lengths and those lengths: blocks
that agree on the four input sequences agree after the command, whatever their outputs, their `STATUS` and
what their input buffers hold beyond the lengths. -/
def Obligations.PostStateDependsOnInputsAlone : Prop :=
  ∀ (s t : State) (w : Word),
    s.params = t.params → s.ibSeq = t.ibSeq → s.ibitSeq = t.ibitSeq → s.iintSeq = t.iintSeq →
    s.irecSeq = t.irecSeq →
      ∃ s' t', runCommand w s = .next s' ∧ runCommand w t = .next t' ∧
        s'.ob = t'.ob ∧ s'.obit = t'.obit ∧ s'.oint = t'.oint ∧ s'.orec = t'.orec ∧
        s'.status = t'.status

/-- 60_exceptions.md R150, 70_reset_and_hazards.md R164: nothing of a command survives the next one; in
particular a fault is not sticky, and the same command again gives the same state (20_memory.md R57). -/
def Obligations.NextCommandErasesThePreviousOne : Prop :=
  ∀ (s : State) (w₁ w₂ : Word), ∃ t, runCommand w₁ s = .next t ∧
    runCommand w₂ t = runCommand w₂ s

/-- 42_formation_field_packer.md R123: validation never resets a field, so `DEC.V` is `DEC`, and `HADERR` is 0
after every command. -/
def Obligations.ValidationNeverFires : Prop :=
  (∀ s : State, exec .decV s = exec .dec s) ∧
  (∀ (s : State) (w : Word), ∃ t, runCommand w s = .next t ∧ t.hadErr = false)

/-! ### The byte-bit adapter -/

/-- 40_byte_bit_adapter.md R91. -/
def Obligations.BtobGivesTheLeadingBits : Prop :=
  ∀ (s : State) (e : BitVec 16), launchOk s →
    let n := s.ib.len.toNat
    let L := if e.toNat = 0 then 8 * n else min e.toNat (8 * n)
    decode (BitVec.ofNat 32 (e.toNat * 65536 + 1)) = .command (.btob e) ∧
    ∃ b, exec (.btob e) s = .next (outcome s Buf.empty b Buf.empty Buf.empty 1) ∧
      b.len.toNat = L ∧
      ∀ i, Memory.read b.mem i =
        if i < L then some (decide ((s.ibSeq.getD (i / 8) 0).toNat / 2 ^ (7 - i % 8) % 2 = 1)) else none

/-- 40_byte_bit_adapter.md R93; the byte as the sum the rule gives. -/
def Obligations.BtoyPacksBitsZeroPadded : Prop :=
  decode 0x00000002 = .command .btoy ∧
  ∀ s : State, launchOk s →
    let m := s.ibit.len.toNat
    ∃ b, exec .btoy s = .next (outcome s b Buf.empty Buf.empty Buf.empty 1) ∧
      b.len.toNat = (m + 7) / 8 ∧
      ∀ j, if j < (m + 7) / 8 then
          ∃ y, Memory.read b.mem j = some y ∧
            y.toNat = ((List.range 8).map fun t =>
              if s.ibitSeq.getD (8 * j + t) false = true then 2 ^ (7 - t) else 0).sum
        else Memory.read b.mem j = none

/-- 40_byte_bit_adapter.md R94. -/
def Obligations.BitLengthsAndPrefixes : Prop :=
  (∀ (B : List Byte) (e e' : Nat), 0 < e → e ≤ e' →
    (bytesToBits B e).length = min e (8 * B.length) ∧
    bytesToBits B e <+: bytesToBits B e' ∧ bytesToBits B e' <+: bytesToBits B 0) ∧
  (∀ b : List Bool,
    (bitsToBytes b).length = (b.length + 7) / 8 ∧
    bytesToBits (bitsToBytes b) 0
      = b ++ List.replicate (8 * ((b.length + 7) / 8) - b.length) false) ∧
  (∀ B : List Byte, bitsToBytes (bytesToBits B 0) = B)

/-- 40_byte_bit_adapter.md R95: `bytesToBits(boolsToBytes(B), len(B))` equals B; and as commands: `BTOY`, copy,
`BTOB` of the length gives the bits back. -/
def Obligations.BitRoundTrip : Prop :=
  (∀ B : List Bool, bytesToBits (bitsToBytes B) B.length = B) ∧
  ∀ s : State, launchOk s → (s.ibit.len.toNat + 7) / 8 ≤ s.params.ibCap →
    ∃ t, run s [issue .btoy, .copyObToIb, issue (.btob (BitVec.ofNat 16 s.ibit.len.toNat))] = .next t ∧
      t.obitSeq = s.ibitSeq

/-! ### The integer-list marshaller -/

/-- 41_integer_list_marshaller.md R101. -/
def Obligations.IencGivesLittleEndianBytes : Prop :=
  decode 0x00000003 = .command .ienc ∧
  ∀ s : State, launchOk s → s.params.hasIlm = true →
    let c := s.iint.len.toNat
    ∃ b, exec .ienc s = .next (outcome s b Buf.empty Buf.empty Buf.empty 1) ∧
      b.len.toNat = 4 * c ∧
      (∀ j k, j < c → k < 4 →
        Memory.read b.mem (4 * j + k) = some (BitVec.ofNat 8 ((s.iintSeq.getD j 0).toNat / 256 ^ k))) ∧
      ∀ i, 4 * c ≤ i → Memory.read b.mem i = none

/-- 41_integer_list_marshaller.md R103; each value by the rule's signed formula. -/
def Obligations.IdecReadsLittleEndianGroups : Prop :=
  decode 0x00000004 = .command .idec ∧
  ∀ s : State, launchOk s → s.params.hasIlm = true →
    let n := s.ib.len.toNat
    ∃ b, exec .idec s = .next (outcome s Buf.empty Buf.empty b Buf.empty 1) ∧
      b.len.toNat = n / 4 ∧
      (∀ j, j < n / 4 → ∃ v, Memory.read b.mem j = some v ∧
        let u : Nat := (s.ibSeq.getD (4 * j) 0).toNat + 256 * (s.ibSeq.getD (4 * j + 1) 0).toNat
          + 65536 * (s.ibSeq.getD (4 * j + 2) 0).toNat + 16777216 * (s.ibSeq.getD (4 * j + 3) 0).toNat
        v.toInt = if u < 2147483648 then (u : Int) else (u : Int) - 4294967296) ∧
      ∀ j, n / 4 ≤ j → Memory.read b.mem j = none

/-- 41_integer_list_marshaller.md R105: both directions. -/
def Obligations.IntegerListRoundTrip : Prop :=
  (∀ s : State, launchOk s → s.params.hasIlm = true → 4 * s.iint.len.toNat ≤ s.params.ibCap →
    ∃ t, run s [issue .ienc, .copyObToIb, issue .idec] = .next t ∧ t.ointSeq = s.iintSeq) ∧
  (∀ v : List Word, bytesToInts (intsToBytes v) = v) ∧
  (∀ B : List Byte, intsToBytes (bytesToInts B) = B.take (4 * (B.length / 4)))

/-! ### The formation field packer -/

/-- 42_formation_field_packer.md R113, R114: a field wholly present reads as the value written, a field wholly
missing as 0, a field cut short as the shorter field that is there; the cursor advances regardless. -/
def Obligations.ShortReadRule : Prop :=
  (∀ (b : List Bool) (c w : Nat), (readField b c w).2 = c + w) ∧
  (∀ (pre post : List Bool) (x w : Nat), x < 2 ^ w →
    (readField (pre ++ ((List.range w).map fun t => x.testBit (w - 1 - t)) ++ post) pre.length w).1 = x) ∧
  (∀ (b : List Bool) (c w : Nat), b.length ≤ c → (readField b c w).1 = 0) ∧
  (∀ (b : List Bool) (c w : Nat), c < b.length → b.length < c + w →
    (readField b c w).1 = (readField b c (b.length - c)).1)

/-- 42_formation_field_packer.md R115, on signed integers. -/
def Obligations.ModulusIsTheLowTwoDigits : Prop :=
  ∀ id : Word, (modulus id : Int) = (if 0 < id.toInt then id.toInt % 100 else 0) ∧ modulus id < 100

/-- 42_formation_field_packer.md R116. -/
def Obligations.ExpansionRange : Prop :=
  ∀ s m nb : Nat, 1 ≤ s → s ≤ 12 → m ≤ 127 →
    (m = 0 → expand s m nb = 0) ∧ (0 < m → expand s m nb = m + nb + 100 * s) ∧
    (0 < m → 10101 ≤ expand s m 10000 ∧ expand s m 10000 ≤ 11327) ∧
    (0 < m → 20101 ≤ expand s m 20000 ∧ expand s m 20000 ≤ 21327)

/-- 42_formation_field_packer.md R127: on every block `Low4` is the identity on 0 to 15; on a block with the
spec's own instance (log entry 5: no exceptions) it is the low four bits of every value. -/
def Obligations.SlotTypeFieldOnEncode : Prop :=
  (∀ (p : Params) (st : Word), st.toNat ≤ 15 → (low4 p st).toNat = st.toNat) ∧
  (∀ (p : Params) (st : Word), p.low4Outside = [] → ((low4 p st).toNat : Int) = st.toInt % 16)

/-- 42_formation_field_packer.md R118, R121, R122: what `DEC` and `DEC.V` leave, slot by slot from the field
positions of R112. -/
def Obligations.DecEmitsTheNonzeroSlots : Prop :=
  decode 0x00000005 = .command .dec ∧ decode 0x00000015 = .command .decV ∧
  ∀ s : State,
    let b := bytesToBits s.ibSeq 553
    let g := fun k off w => (readField b (1 + 46 * k + off) w).1
    let ego := fun k off =>
      if g k off 7 = 0 then (0 : Word) else BitVec.ofNat 32 (g k off 7 + 20000 + 100 * (k + 1))
    let recs := (List.range 12).filterMap fun k =>
      if g k 0 7 = 0 ∧ g k 11 7 = 0 ∧ g k 18 7 = 0 ∧ g k 25 7 = 0 ∧ g k 32 7 = 0 ∧ g k 39 7 = 0 then none
      else some
        { slot := BitVec.ofNat 32 (k + 1)
          pid := if g k 0 7 = 0 then (0 : Word) else BitVec.ofNat 32 (g k 0 7 + 10000 + 100 * (k + 1))
          st := BitVec.ofNat 32 (g k 7 4)
          ego := ⟨ego k 11, ego k 18, ego k 25, ego k 32, ego k 39⟩
          en := if 0 < g k 7 4 then 1 else 0 : OutRec }
    ∃ o, exec .dec s = .next (outcome s Buf.empty Buf.empty Buf.empty o 1) ∧
      exec .decV s = .next (outcome s Buf.empty Buf.empty Buf.empty o 1) ∧
      o.len.toNat = recs.length ∧ ∀ j, Memory.read o.mem j = recs[j]?

/-- 42_formation_field_packer.md R124, R117: `DEC` ignores the reserved bit, the padding and every byte from
index 70 on: payloads that agree on stream indices 1 to 552 decode alike. -/
def Obligations.DecIgnoresReservedBitAndPadding : Prop :=
  (∀ (s t : State) (i : Instr), i ∈ [.dec, .decV] → 0 < s.ib.len.toNat → 0 < t.ib.len.toNat →
    (∀ k, 1 ≤ k → k ≤ 552 → (bytesToBits s.ibSeq 553)[k]? = (bytesToBits t.ibSeq 553)[k]?) →
      ∃ s' t', exec i s = .next s' ∧ exec i t = .next t' ∧ s'.orec = t'.orec ∧ s'.status = t'.status) ∧
  (∀ B : List Byte, 70 ≤ B.length → (bytesToBits B 553).length = 553)

/-- 10_state.md R25: the ranges of what `DEC` emits, and its slots strictly ascending. -/
def Obligations.DecodedRecordsAreInRange : Prop :=
  ∀ (s : State) (i : Instr), i ∈ [.dec, .decV] →
    ∃ t, exec i s = .next t ∧ t.orec.len.toNat ≤ 12 ∧
      (∀ r ∈ t.orec.mem, outRecOk r.2) ∧
      t.orec.mem.Pairwise fun a b => a.1 < b.1 ∧ a.2.slot.toNat < b.2.slot.toNat

/-- 42_formation_field_packer.md R119, R128: an empty payload decodes to nothing, an empty list encodes to
nothing, on both paths, and neither is an error. -/
def Obligations.EmptyInputsGiveEmptyOutputs : Prop :=
  (∀ (s : State) (i : Instr), s.ib.len.toNat = 0 → i ∈ [.dec, .decV] →
    exec i s = .next (outcome s Buf.empty Buf.empty Buf.empty Buf.empty 1)) ∧
  (∀ s : State, s.irec.len.toNat = 0 →
    exec .enc s = .next (outcome s Buf.empty Buf.empty Buf.empty Buf.empty 1)) ∧
  (∀ s : State, s.irec.len.toNat = 0 → s.params.hasIlm = true →
    exec .encR s = .next (outcome s Buf.empty Buf.empty Buf.empty Buf.empty 1))

/-- 42_formation_field_packer.md R110 to R113, R117, R125: what `ENC` leaves for a non-empty list: 70 bytes, the
reserved bit 1, the seven fields of each slot at their positions, the padding 0. -/
def Obligations.EncLaysOutTwelveSlots : Prop :=
  decode 0x00000006 = .command .enc ∧
  ∀ s : State, launchOk s → 0 < s.irec.len.toNat →
    ∃ b ys, exec .enc s = .next (outcome s b Buf.empty Buf.empty Buf.empty 1) ∧
      b.len.toNat = 70 ∧ ys.length = 70 ∧ (∀ i, Memory.read b.mem i = ys[i]?) ∧
      128 ≤ (ys.getD 0 0).toNat ∧ (ys.getD 69 0).toNat % 128 = 0 ∧
      ∀ k, k < 12 →
        let r := positional s.params.dupPolicy s.irecSeq (k + 1)
        let f := fun off w => (readField (bytesToBits ys 553) (1 + 46 * k + off) w).1
        f 0 7 = modulus r.pid ∧ f 7 4 = (low4 s.params r.st).toNat ∧
        f 11 7 = modulus r.ego.e0 ∧ f 18 7 = modulus r.ego.e1 ∧ f 25 7 = modulus r.ego.e2 ∧
        f 32 7 = modulus r.ego.e3 ∧ f 39 7 = modulus r.ego.e4

/-- 42_formation_field_packer.md R129: the shape of a 70-byte payload. -/
def Obligations.EncPayloadShape : Prop :=
  ∀ s : State, launchOk s → 0 < s.irec.len.toNat →
    ∃ t, exec .enc s = .next t ∧ t.ob.len = 70 ∧
      128 ≤ (t.obSeq.getD 0 0).toNat ∧ (t.obSeq.getD 69 0 = 0x00 ∨ t.obSeq.getD 69 0 = 0x80) ∧
      ∀ k off, k < 12 → off ∈ [0, 11, 18, 25, 32, 39] →
        (readField (bytesToBits t.obSeq 553) (1 + 46 * k + off) 7).1 ≤ 99

/-- 42_formation_field_packer.md R126: the positional map, policy by policy; a slot without a record is the
all-zero virtual slot; with unique keys in 1 to 12 neither the order of the list nor the policy matters to
any of the twelve slots, nor to the payload, whatever other keys the list holds or repeats. Which policy a
block has is a parameter (log entry 6). -/
def Obligations.PositionalMapBySlotKey : Prop :=
  (∀ (pol : DupPolicy) (recs : List InRec) (k : Nat), (∀ r ∈ recs, r.slot.toInt ≠ k) →
    positional pol recs k = ⟨0, 0, 0, ⟨0, 0, 0, 0, 0⟩⟩) ∧
  (∀ (pre post : List InRec) (r : InRec) (k : Nat), r.slot.toInt = k → (∀ q ∈ post, q.slot.toInt ≠ k) →
    positional .last (pre ++ r :: post) k = r) ∧
  (∀ (pre post : List InRec) (r : InRec) (k : Nat), r.slot.toInt = k → (∀ q ∈ pre, q.slot.toInt ≠ k) →
    positional .first (pre ++ r :: post) k = r) ∧
  (∀ (pol pol' : DupPolicy) (recs recs' : List InRec) (k : Nat), 1 ≤ k → k ≤ 12 → uniqueKeys recs →
    recs.Perm recs' → positional pol recs k = positional pol' recs' k) ∧
  (∀ (p : Params) (pol : DupPolicy) (recs recs' : List InRec), uniqueKeys recs → recs.Perm recs' →
    encodeDeck { p with dupPolicy := pol } recs = encodeDeck p recs')

/-- 42_formation_field_packer.md R131: seven little-endian words per record, in input order, without the slot
word. -/
def Obligations.EncRWritesSevenWordsPerRecord : Prop :=
  decode 0x00000026 = .command .encR ∧
  ∀ s : State, launchOk s → s.params.hasIlm = true →
    let n := s.irec.len.toNat
    ∃ b, exec .encR s = .next (outcome s b Buf.empty Buf.empty Buf.empty 1) ∧
      b.len.toNat = 28 * n ∧
      (∀ j r q k, s.irecSeq[j]? = some r → q < 7 → k < 4 →
        Memory.read b.mem (28 * j + 4 * q + k) = some (BitVec.ofNat 8
          (([r.pid, r.st, r.ego.e0, r.ego.e1, r.ego.e2, r.ego.e3, r.ego.e4].getD q 0).toNat / 256 ^ k))) ∧
      ∀ i, 28 * n ≤ i → Memory.read b.mem i = none

/-- 42_formation_field_packer.md R133: `ENC`, copy, `DEC` (or `DEC.V`) gives back exactly the non-empty records,
sorted by slot. -/
def Obligations.DeckRoundTrip : Prop :=
  ∀ (s : State) (i : Instr), launchOk s → 0 < s.irec.len.toNat →
    uniqueKeys s.irecSeq → (∀ r ∈ s.irecSeq, carried r) → i ∈ [.dec, .decV] →
      ∃ t, run s [issue .enc, .copyObToIb, issue i] = .next t ∧ t.hadErr = false ∧ t.irec = s.irec ∧
        (t.orecSeq.Pairwise fun a b => a.slot.toNat < b.slot.toNat) ∧
        ∀ o, o ∈ t.orecSeq ↔ ∃ r ∈ s.irecSeq,
          (r.pid ≠ 0 ∨ ∃ e ∈ Five.toList r.ego, e ≠ 0) ∧
          o = { slot := r.slot, pid := r.pid, st := r.st, ego := r.ego, en := if 0 < r.st.toNat then 1 else 0 }

/-- 42_formation_field_packer.md R134: what `ENC`, copy, `DEC` makes of ANY records: identifiers are rebuilt from
their low two digits and the slot, and a slot whose six moduli are 0 is dropped. -/
def Obligations.DeckRoundTripOfAnyRecords : Prop :=
  ∀ (s : State) (i : Instr), launchOk s → 0 < s.irec.len.toNat → i ∈ [.dec, .decV] →
    let rebuilt := fun (k nb : Nat) (id : Word) =>
      if modulus id = 0 then (0 : Word) else BitVec.ofNat 32 (modulus id + nb + 100 * k)
    ∃ t, run s [issue .enc, .copyObToIb, issue i] = .next t ∧ t.hadErr = false ∧
      t.orecSeq = (List.range 12).filterMap fun j =>
        let r := positional s.params.dupPolicy s.irecSeq (j + 1)
        if modulus r.pid = 0 ∧ ∀ e ∈ Five.toList r.ego, modulus e = 0 then none
        else some
          { slot := BitVec.ofNat 32 (j + 1)
            pid := rebuilt (j + 1) 10000 r.pid
            st := (low4 s.params r.st).setWidth 32
            ego := Five.map (rebuilt (j + 1) 20000) r.ego
            en := if low4 s.params r.st = 0 then 0 else 1 : OutRec }

/-- 10_state.md R30, 42_formation_field_packer.md R118: the cursor of a decode that reads fields ends at 553
whatever the payload; on the empty payload no field is read, and the cursor is where it starts. -/
def Obligations.CursorEndsAt553 : Prop :=
  (∀ (valid : Bool) (B : List Byte), B ≠ [] → (decodeDeck valid B).cursor = 553) ∧
  (∀ valid : Bool, decodeDeck valid [] = ⟨[], false, 1⟩)

/-! ### The host's accesses, reset and runs -/

/-- 10_state.md R28, R29, R31, R32: what a host read of each register returns; a number above 10 is refused. -/
def Obligations.HostReadsTheRegisters : Prop :=
  ∀ (s : State) (n : Nat),
    let value : Word := [0, s.status &&& 7, if s.params.hasIlm then 1 else 0, s.ib.len, s.ibit.len,
      if s.params.hasIlm then s.iint.len else 0, s.irec.len, s.ob.len, s.obit.len, s.oint.len,
      s.orec.len].getD n 0
    (n ≤ 10 → act (.readReg n) s = .next { s with observed := .register n value :: s.observed }) ∧
    (10 < n → act (.readReg n) s = .refused (.noSuchRegister n))

/-- 10_state.md R29, R31, R32: host writes of the registers other than `CMD`: input lengths within capacity are
stored, one above it is refused; a read-only register ignores the write. -/
def Obligations.HostWritesTheRegisters : Prop :=
  ∀ (s : State) (v : Word),
    act (.writeReg 3 v) s = (if v.toNat ≤ s.params.ibCap then .next { s with ib := ⟨v, s.ib.mem⟩ }
      else .refused (.lengthAboveCapacity .ib)) ∧
    act (.writeReg 4 v) s = (if v.toNat ≤ s.params.ibitCap then .next { s with ibit := ⟨v, s.ibit.mem⟩ }
      else .refused (.lengthAboveCapacity .ibit)) ∧
    (s.params.hasIlm = true → act (.writeReg 5 v) s =
      (if v.toNat ≤ s.params.iintCap then .next { s with iint := ⟨v, s.iint.mem⟩ }
       else .refused (.lengthAboveCapacity .iint))) ∧
    (s.params.hasIlm = false → act (.writeReg 5 v) s = .next s) ∧
    act (.writeReg 6 v) s = (if v.toNat ≤ s.params.irecCap then .next { s with irec := ⟨v, s.irec.mem⟩ }
      else .refused (.lengthAboveCapacity .irec)) ∧
    (∀ n ∈ [1, 2, 7, 8, 9, 10], act (.writeReg n v) s = .next s) ∧
    ∀ n, 10 < n → act (.writeReg n v) s = .refused (.noSuchRegister n)

/-- 10_state.md R27; 20_memory.md R57, R59: a host read of an element at or beyond the length is refused (the
name is the model's, log entry 10); below it the host observes that element of the buffer's sequence and
nothing else changes; without the marshaller `IINT` has no element (log entry 8); after reset every element
read is refused. -/
def Obligations.ElementBeyondLengthHasNoValue : Prop :=
  (∀ (s : State) (b : Space) (i : Nat), s.lenOf b ≤ i →
    act (.readElem b i) s = .refused (.elementWithoutValue b i)) ∧
  (∀ (s : State) (i : Nat), i < s.ib.len.toNat → ∃ v, s.ibSeq[i]? = some v ∧
    act (.readElem .ib i) s = .next { s with observed := .bytes .ib i [v] :: s.observed }) ∧
  (∀ (s : State) (i : Nat), i < s.ibit.len.toNat → ∃ v, s.ibitSeq[i]? = some v ∧
    act (.readElem .ibit i) s = .next { s with observed := .bits .ibit i [v] :: s.observed }) ∧
  (∀ (s : State) (i : Nat), s.params.hasIlm = true → i < s.iint.len.toNat → ∃ v, s.iintSeq[i]? = some v ∧
    act (.readElem .iint i) s = .next { s with observed := .ints .iint i [v] :: s.observed }) ∧
  (∀ (s : State) (i : Nat), i < s.irec.len.toNat → ∃ v, s.irecSeq[i]? = some v ∧
    act (.readElem .irec i) s = .next { s with observed := .inRecs i [v] :: s.observed }) ∧
  (∀ (s : State) (i : Nat), i < s.ob.len.toNat → ∃ v, s.obSeq[i]? = some v ∧
    act (.readElem .ob i) s = .next { s with observed := .bytes .ob i [v] :: s.observed }) ∧
  (∀ (s : State) (i : Nat), i < s.obit.len.toNat → ∃ v, s.obitSeq[i]? = some v ∧
    act (.readElem .obit i) s = .next { s with observed := .bits .obit i [v] :: s.observed }) ∧
  (∀ (s : State) (i : Nat), i < s.oint.len.toNat → ∃ v, s.ointSeq[i]? = some v ∧
    act (.readElem .oint i) s = .next { s with observed := .ints .oint i [v] :: s.observed }) ∧
  (∀ (s : State) (i : Nat), i < s.orec.len.toNat → ∃ v, s.orecSeq[i]? = some v ∧
    act (.readElem .orec i) s = .next { s with observed := .outRecs i [v] :: s.observed }) ∧
  (∀ (s : State) (i : Nat), s.params.hasIlm = false →
    act (.readElem .iint i) s = .refused (.elementWithoutValue .iint i)) ∧
  (∀ (p : Params) (b : Space) (i : Nat),
    act (.readElem b i) (State.resetOf p) = .refused (.elementWithoutValue b i))

/-- 30_encoding.md R80: after a SET the buffer holds the sequence given, after a COPY `IB` holds what `OB`
held (and, 95_test_vectors.md P5, `IREC` the input words of the records of `OREC`); nothing else changes;
the host's read of `OB` returns its elements. (The other buffers: `HostBufferReadsReturnTheSequence`; too long
a sequence: `HostSetAboveCapacityIsRefused`.) -/
def Obligations.HostSetAndCopyPlaceTheSequence : Prop :=
  (∀ (s : State) (l : List Byte), launchOk s → l.length ≤ s.params.ibCap →
    ∃ b, act (.setIb l) s = .next { s with ib := b } ∧ b.len.toNat = l.length ∧
      ({ s with ib := b } : State).ibSeq = l) ∧
  (∀ (s : State) (l : List Bool), launchOk s → l.length ≤ s.params.ibitCap →
    ∃ b, act (.setIbit l) s = .next { s with ibit := b } ∧ b.len.toNat = l.length ∧
      ({ s with ibit := b } : State).ibitSeq = l) ∧
  (∀ (s : State) (l : List Word), launchOk s → s.params.hasIlm = true → l.length ≤ s.params.iintCap →
    ∃ b, act (.setIint l) s = .next { s with iint := b } ∧ b.len.toNat = l.length ∧
      ({ s with iint := b } : State).iintSeq = l) ∧
  (∀ (s : State) (l : List InRec), launchOk s → l.length ≤ s.params.irecCap →
    ∃ b, act (.setIrec l) s = .next { s with irec := b } ∧ b.len.toNat = l.length ∧
      ({ s with irec := b } : State).irecSeq = l) ∧
  (∀ s : State, launchOk s → s.ob.len.toNat ≤ s.params.ibCap →
    ∃ b, act .copyObToIb s = .next { s with ib := b } ∧ b.len.toNat = s.ob.len.toNat ∧
      ({ s with ib := b } : State).ibSeq = s.obSeq) ∧
  (∀ s : State, launchOk s → s.orec.len.toNat ≤ s.params.irecCap →
    ∃ b, act .copyOrecToIrec s = .next { s with irec := b } ∧ b.len.toNat = s.orec.len.toNat ∧
      ({ s with irec := b } : State).irecSeq = s.orecSeq.map fun r => ⟨r.slot, r.pid, r.st, r.ego⟩) ∧
  (∀ s : State, act (.readBuf .ob) s
    = .next { s with observed := .bytes .ob 0 s.obSeq :: s.observed })

/-- 20_memory.md R50, R59: a host write of one element of an input buffer is what that element then reads as,
and changes no other element, no length and no other buffer. The model's choices: that an index below the
capacity and beyond the length is written (log entry 9), that one at the capacity or above faults (log entry
10), and that a write of `IINT` without the marshaller is refused (log entry 8). -/
def Obligations.HostElementWriteIsWhatIsRead : Prop :=
  (∀ (s : State) (i : Nat) (v : Byte),
    (i < s.params.ibCap → ∃ m, act (.writeIb i v) s = .next { s with ib := ⟨s.ib.len, m⟩ } ∧
      Memory.read m i = some v ∧ ∀ k, k ≠ i → Memory.read m k = Memory.read s.ib.mem k) ∧
    (s.params.ibCap ≤ i → act (.writeIb i v) s = .fault (.noSuchElement .ib i))) ∧
  (∀ (s : State) (i : Nat) (v : Bool),
    (i < s.params.ibitCap → ∃ m, act (.writeIbit i v) s = .next { s with ibit := ⟨s.ibit.len, m⟩ } ∧
      Memory.read m i = some v ∧ ∀ k, k ≠ i → Memory.read m k = Memory.read s.ibit.mem k) ∧
    (s.params.ibitCap ≤ i → act (.writeIbit i v) s = .fault (.noSuchElement .ibit i))) ∧
  (∀ (s : State) (i : Nat) (v : Word), s.params.hasIlm = true →
    (i < s.params.iintCap → ∃ m, act (.writeIint i v) s = .next { s with iint := ⟨s.iint.len, m⟩ } ∧
      Memory.read m i = some v ∧ ∀ k, k ≠ i → Memory.read m k = Memory.read s.iint.mem k) ∧
    (s.params.iintCap ≤ i → act (.writeIint i v) s = .fault (.noSuchElement .iint i))) ∧
  (∀ (s : State) (i : Nat) (v : Word), s.params.hasIlm = false →
    act (.writeIint i v) s = .refused (.absentBuffer .iint)) ∧
  (∀ (s : State) (i : Nat) (v : InRec),
    (i < s.params.irecCap → ∃ m, act (.writeIrec i v) s = .next { s with irec := ⟨s.irec.len, m⟩ } ∧
      Memory.read m i = some v ∧ ∀ k, k ≠ i → Memory.read m k = Memory.read s.irec.mem k) ∧
    (s.params.irecCap ≤ i → act (.writeIrec i v) s = .fault (.noSuchElement .irec i)))

/-- 20_memory.md R57: a host read changes nothing but what the host has observed, and reading twice gives the
same value. -/
def Obligations.HostReadsHaveNoSideEffect : Prop :=
  ∀ (s t : State) (a : HostAction),
    (∃ n, a = .readReg n) ∨ (∃ b i, a = .readElem b i) ∨ (∃ b, a = .readBuf b) →
    act a s = .next t →
      ∃ o, t = { s with observed := o :: s.observed } ∧
        act a t = .next { s with observed := o :: o :: s.observed }

/-- 10_state.md R36, 70_reset_and_hazards.md R160: what reset leaves, on every block: the registers as they
read, and no element with a value. -/
def Obligations.ResetState : Prop :=
  ∀ (p : Params),
    (State.resetOf p).code = 0 ∧ (State.resetOf p).hadErr = false ∧
    (State.resetOf p).status.extractLsb' 3 29 = 0 ∧
    readRegister (State.resetOf p) 0 = some 0 ∧
    readRegister (State.resetOf p) 2 = some (if p.hasIlm then 1 else 0) ∧
    (∀ n ∈ [1, 3, 4, 5, 6, 7, 8, 9, 10], readRegister (State.resetOf p) n = some 0) ∧
    (State.resetOf p).ib.mem = [] ∧ (State.resetOf p).ibit.mem = [] ∧ (State.resetOf p).iint.mem = [] ∧
    (State.resetOf p).irec.mem = [] ∧ (State.resetOf p).ob.mem = [] ∧ (State.resetOf p).obit.mem = [] ∧
    (State.resetOf p).oint.mem = [] ∧ (State.resetOf p).orec.mem = []

/-- 70_reset_and_hazards.md R160: a later reset puts the block in the same state as the first. -/
def Obligations.HostResetGivesResetState : Prop :=
  ∀ s : State, act .reset s =
    .next { State.resetOf s.params with
      script := s.script, observed := s.observed, resets := s.resets + 1 }

/-- 70_reset_and_hazards.md R162: a command issued straight after reset, with no inputs loaded, returns the
empty result with `STATUS.CODE` = 1. -/
def Obligations.CommandsStraightAfterResetGiveNothing : Prop :=
  ∀ (p : Params) (i : Instr), i.wellFormed p.hasIlm = true → i ≠ .iencN →
    run (State.resetOf p) [issue i] = .next
      { State.resetOf p with status := 1 }

/-- 70_reset_and_hazards.md R167: with no host action left the block is quiescent. -/
def Obligations.QuiescentWhenTheHostStops : Prop :=
  ∀ s : State, s.script = [] → step s = .next s

/-- 10_state.md R31, 00_scope.md R7: no step changes a parameter of the block, `CONFIG` among them. -/
def Obligations.ParametersAreConstant : Prop :=
  ∀ s t : State, step s = .next t → t.params = s.params ∧ readRegister t 2 = readRegister s 2

/-- The invariant holds at reset, of every block with legal parameters, the fixed one among them. -/
def Obligations.InvariantHoldsAtReset : Prop :=
  (∀ p : Params, p.legal → Inv (State.resetOf p)) ∧ Inv State.reset

/-- 10_state.md R25, R29, R32, R33; 00_scope.md R7; 60_exceptions.md R140: every step keeps the invariant:
lengths within capacity, contents in canonical form and of elements that exist, output contents exactly the
elements below the length, `STATUS` with its reserved bits and `HADERR` 0 and no outputs unless `OK`, decoded
records in range and in slot order. -/
def Obligations.EveryStepKeepsTheInvariant : Prop :=
  ∀ s t : State, Inv s → step s = .next t → Inv t

/-- 30_encoding.md R80 (`HOST READ`), 20_memory.md R57, R59: a host read of a whole buffer observes exactly its
elements from index 0 to its length minus 1 and changes nothing else, for each of the eight buffers (`IINT`
without the marshaller: none, log entry 8). -/
def Obligations.HostBufferReadsReturnTheSequence : Prop :=
  (∀ s : State,
    act (.readBuf .ib) s = .next { s with observed := .bytes .ib 0 s.ibSeq :: s.observed } ∧
    act (.readBuf .ibit) s = .next { s with observed := .bits .ibit 0 s.ibitSeq :: s.observed } ∧
    act (.readBuf .iint) s = .next { s with observed := .ints .iint 0 s.iintSeq :: s.observed } ∧
    act (.readBuf .irec) s = .next { s with observed := .inRecs 0 s.irecSeq :: s.observed } ∧
    act (.readBuf .ob) s = .next { s with observed := .bytes .ob 0 s.obSeq :: s.observed } ∧
    act (.readBuf .obit) s = .next { s with observed := .bits .obit 0 s.obitSeq :: s.observed } ∧
    act (.readBuf .oint) s = .next { s with observed := .ints .oint 0 s.ointSeq :: s.observed } ∧
    act (.readBuf .orec) s = .next { s with observed := .outRecs 0 s.orecSeq :: s.observed }) ∧
  (∀ s : State,
    s.ibSeq.length = s.ib.len.toNat ∧ s.ibitSeq.length = s.ibit.len.toNat ∧
    s.iintSeq.length = (if s.params.hasIlm then s.iint.len.toNat else 0) ∧
    s.irecSeq.length = s.irec.len.toNat ∧ s.obSeq.length = s.ob.len.toNat ∧
    s.obitSeq.length = s.obit.len.toNat ∧ s.ointSeq.length = s.oint.len.toNat ∧
    s.orecSeq.length = s.orec.len.toNat)

/-- 10_state.md R32 ("the model should refuse such a launch rather than clamp"): a SET or COPY of more elements
than the input buffer holds is refused (the names and the refusal of the whole action are the model's, log
entry 10); without the marshaller SET of `IINT` changes nothing for the empty list and is refused for any
other (log entry 8). -/
def Obligations.HostSetAboveCapacityIsRefused : Prop :=
  (∀ (s : State) (l : List Byte), s.params.ibCap < l.length →
    act (.setIb l) s = .refused (.lengthAboveCapacity .ib)) ∧
  (∀ (s : State) (l : List Bool), s.params.ibitCap < l.length →
    act (.setIbit l) s = .refused (.lengthAboveCapacity .ibit)) ∧
  (∀ (s : State) (l : List Word), s.params.hasIlm = true → s.params.iintCap < l.length →
    act (.setIint l) s = .refused (.lengthAboveCapacity .iint)) ∧
  (∀ (s : State) (l : List InRec), s.params.irecCap < l.length →
    act (.setIrec l) s = .refused (.lengthAboveCapacity .irec)) ∧
  (∀ s : State, s.params.ibCap < s.ob.len.toNat →
    act .copyObToIb s = .refused (.lengthAboveCapacity .ib)) ∧
  (∀ s : State, s.params.irecCap < s.orec.len.toNat →
    act .copyOrecToIrec s = .refused (.lengthAboveCapacity .irec)) ∧
  (∀ s : State, s.params.hasIlm = false → act (.setIint []) s = .next s) ∧
  (∀ (s : State) (l : List Word), s.params.hasIlm = false → l ≠ [] →
    act (.setIint l) s = .refused (.absentBuffer .iint))

/-- 20_memory.md R59: a host write of an element below the length is what the host's next read of that element
observes, and what a command then finds there; the other elements are as before. -/
def Obligations.HostReadReturnsTheLatestWrite : Prop :=
  (∀ (s : State) (i : Nat) (v : Byte), i < s.params.ibCap → i < s.ib.len.toNat →
    ∃ t, run s [.writeIb i v, .readElem .ib i] = .next t ∧
      t.observed = .bytes .ib i [v] :: s.observed ∧ t.ibSeq = s.ibSeq.set i v) ∧
  (∀ (s : State) (i : Nat) (v : Bool), i < s.params.ibitCap → i < s.ibit.len.toNat →
    ∃ t, run s [.writeIbit i v, .readElem .ibit i] = .next t ∧
      t.observed = .bits .ibit i [v] :: s.observed ∧ t.ibitSeq = s.ibitSeq.set i v) ∧
  (∀ (s : State) (i : Nat) (v : Word), s.params.hasIlm = true → i < s.params.iintCap → i < s.iint.len.toNat →
    ∃ t, run s [.writeIint i v, .readElem .iint i] = .next t ∧
      t.observed = .ints .iint i [v] :: s.observed ∧ t.iintSeq = s.iintSeq.set i v) ∧
  (∀ (s : State) (i : Nat) (v : InRec), i < s.params.irecCap → i < s.irec.len.toNat →
    ∃ t, run s [.writeIrec i v, .readElem .irec i] = .next t ∧
      t.observed = .inRecs i [v] :: s.observed ∧ t.irecSeq = s.irecSeq.set i v)
end

