-- ==== Sys2Proof/Laws/Bits.lean ====
section
/-! SUPPORT. Laws/Bits.lean: bytes, bits, integers and fields, one spec lemma per function. -/

namespace Sys2Proof.Machine

/-! ### Bytes and bits -/

/-- Bit `i` of a byte sequence, by division. -/
theorem streamBit_eq (bs : List Byte) (i : Nat) :
    streamBit bs i = (bs.getD (i / 8) 0).getLsbD (7 - i % 8) := by
  have h : i &&& 7 = i % 8 := Nat.and_two_pow_sub_one_eq_mod i 3
  simp [streamBit, Nat.shiftRight_eq_div_pow, h]

@[simp] theorem bytesToBits_length (bs : List Byte) (e : Nat) :
    (bytesToBits bs e).length = bitCount bs.length e := by
  simp [bytesToBits]

/-- The bits of a byte sequence, one by one. -/
theorem bytesToBits_getElem? (bs : List Byte) (e i : Nat) :
    (bytesToBits bs e)[i]? = if i < bitCount bs.length e then some (streamBit bs i) else none := by
  simp only [bytesToBits, List.getElem?_map]
  split <;> rename_i h
  · simp [List.getElem?_range h]
  · rw [List.getElem?_eq_none (by simpa using h)]
    rfl

theorem bitCount_le (n e : Nat) : bitCount n e ≤ 8 * n := by
  unfold bitCount
  split <;> omega

@[simp] theorem bitCount_zero (n : Nat) : bitCount n 0 = 8 * n := rfl

theorem bitCount_pos (n : Nat) {e : Nat} (h : 0 < e) : bitCount n e = min e (8 * n) := by
  rw [bitCount, if_neg (by omega)]

@[simp] theorem bitsToBytes_length (b : List Bool) : (bitsToBytes b).length = (b.length + 7) / 8 := by
  simp [bitsToBytes]

/-- The bytes of a bit sequence, one by one. -/
theorem bitsToBytes_getElem? (b : List Bool) (j : Nat) :
    (bitsToBytes b)[j]? = if j < (b.length + 7) / 8 then some (packByte b j) else none := by
  simp only [bitsToBytes, List.getElem?_map]
  split <;> rename_i h
  · simp [List.getElem?_range h]
  · rw [List.getElem?_eq_none (by simpa using h)]
    rfl

/-- Eight bits folded into a byte, most significant first: bit `7 - t` is bit `t`. -/
theorem fold_eight_getLsbD (f : Nat → Bool) (t : Nat) (ht : t < 8) :
    (BitVec.ofNat 8 ((List.range 8).foldl (fun v t => 2 * v + (f t).toNat) 0)).getLsbD (7 - t) = f t := by
  have key : ∀ (b0 b1 b2 b3 b4 b5 b6 b7 : Bool) (t : Fin 8),
      (BitVec.ofNat 8 (2 * (2 * (2 * (2 * (2 * (2 * (2 * (2 * 0 + b0.toNat) + b1.toNat) + b2.toNat)
        + b3.toNat) + b4.toNat) + b5.toNat) + b6.toNat) + b7.toNat)).getLsbD (7 - t.val)
      = [b0, b1, b2, b3, b4, b5, b6, b7].getD t.val false := by decide
  have := key (f 0) (f 1) (f 2) (f 3) (f 4) (f 5) (f 6) (f 7) ⟨t, ht⟩
  have e : List.range 8 = [0, 1, 2, 3, 4, 5, 6, 7] := by decide
  rw [e]
  simp only [List.foldl_cons, List.foldl_nil]
  rw [this]
  interval_cases t <;> rfl

/-- A packed byte, bit by bit (40_byte_bit_adapter.md R93). -/
theorem packByte_getLsbD (b : List Bool) (j t : Nat) (ht : t < 8) :
    (packByte b j).getLsbD (7 - t) = b.getD (8 * j + t) false :=
  fold_eight_getLsbD (fun t => b.getD (8 * j + t) false) t ht

/-- The bits of the packed bytes are the bits packed, then zeros. -/
theorem streamBit_bitsToBytes (b : List Bool) (i : Nat) :
    streamBit (bitsToBytes b) i = b.getD i false := by
  rw [streamBit_eq]
  have hi : 8 * (i / 8) + i % 8 = i := by omega
  by_cases h : i / 8 < (b.length + 7) / 8
  · rw [List.getD_eq_getElem?_getD, bitsToBytes_getElem?, if_pos h, Option.getD_some,
      packByte_getLsbD _ _ _ (by omega), hi]
  · rw [List.getD_eq_getElem?_getD, bitsToBytes_getElem?, if_neg h,
      List.getD_eq_getElem?_getD, List.getElem?_eq_none (by omega)]
    simp

/-! ### Integers and bytes -/

@[simp] theorem wordBytes_length (u : Word) : (wordBytes u).length = 4 := rfl

@[simp] theorem intsToBytes_length (v : List Word) : (intsToBytes v).length = 4 * v.length := by
  induction v with
  | nil => rfl
  | cons a t ih =>
    have : intsToBytes (a :: t) = wordBytes a ++ intsToBytes t := by simp [intsToBytes]
    rw [this, List.length_append, ih, wordBytes_length, List.length_cons]
    omega

@[simp] theorem intsToBytes_nil : intsToBytes [] = [] := rfl

theorem intsToBytes_cons (a : Word) (t : List Word) : intsToBytes (a :: t) = wordBytes a ++ intsToBytes t := by
  simp [intsToBytes]

/-- The four bytes of a word, one by one. -/
theorem wordBytes_getElem? (u : Word) (k : Nat) (hk : k < 4) :
    (wordBytes u)[k]? = some (BitVec.ofNat 8 (u.toNat / 256 ^ k)) := by
  interval_cases k <;>
    simp [wordBytes, BitVec.extractLsb', Nat.shiftRight_eq_div_pow]

/-- The bytes of an integer list, one by one (41_integer_list_marshaller.md R101). -/
theorem intsToBytes_getElem? (v : List Word) (j k : Nat) (hk : k < 4) :
    (intsToBytes v)[4 * j + k]? = v[j]?.map fun u => BitVec.ofNat 8 (u.toNat / 256 ^ k) := by
  induction v generalizing j with
  | nil => simp
  | cons a t ih =>
    rw [intsToBytes_cons]
    cases j with
    | zero =>
      rw [Nat.mul_zero, Nat.zero_add, List.getElem?_append_left (by simpa using hk), wordBytes_getElem? _ _ hk]
      simp
    | succ j =>
      rw [List.getElem?_append_right (by simp; omega), List.getElem?_cons_succ, ← ih]
      congr 1
      simp
      omega

@[simp] theorem bytesToInts_length (bs : List Byte) : (bytesToInts bs).length = bs.length / 4 := by
  simp [bytesToInts]

/-- The integers of a byte sequence, one by one (41_integer_list_marshaller.md R103). -/
theorem bytesToInts_getElem? (bs : List Byte) (j : Nat) :
    (bytesToInts bs)[j]? = if j < bs.length / 4 then some (BitVec.ofNat 32 (memRead4 bs (4 * j))) else none := by
  simp only [bytesToInts, List.getElem?_map]
  split <;> rename_i h
  · simp [List.getElem?_range h]
  · rw [List.getElem?_eq_none (by simpa using h)]
    rfl

/-- Four bytes assembled fit 32 bits. -/
theorem memRead4_lt (bs : List Byte) (a : Nat) : memRead4 bs a < 2 ^ 32 := by
  have h (i : Nat) : (bs.getD i 0).toNat < 256 := (bs.getD i 0).isLt
  have h0 := h a
  have h1 := h (a + 1)
  have h2 := h (a + 2)
  have h3 := h (a + 3)
  unfold memRead4
  omega

/-! ### Fields -/

/-- The number a bit sequence spells, first bit most significant. -/
def bitsValue (l : List Bool) : Nat := l.foldl (fun x b => 2 * x + b.toNat) 0

@[simp] theorem bitsValue_nil : bitsValue [] = 0 := rfl

theorem bitsValue_concat (l : List Bool) (b : Bool) : bitsValue (l ++ [b]) = 2 * bitsValue l + b.toNat := by
  simp [bitsValue]

/-- A sequence of `n` bits spells a number below `2 ^ n`. -/
theorem bitsValue_lt (l : List Bool) : bitsValue l < 2 ^ l.length := by
  induction l using List.reverseRecOn with
  | nil => simp
  | append_singleton l b ih =>
    rw [bitsValue_concat, List.length_append, List.length_singleton, Nat.pow_succ]
    have := b.toNat_le
    omega

/-- Reading a field is reading the number spelt by the bits that are there
(42_formation_field_packer.md R114). -/
theorem readField_value (b : List Bool) (c w : Nat) :
    (readField b c w).1 = bitsValue ((b.drop c).take w) := by
  simp only [readField]
  induction w with
  | zero => rfl
  | succ w ih =>
    rw [List.range_succ, List.foldl_append, ih, List.take_add_one, List.getElem?_drop]
    simp only [List.foldl_cons, List.foldl_nil]
    cases b[c + w]? with
    | none => simp
    | some x => simp [bitsValue_concat]

@[simp] theorem readField_cursor (b : List Bool) (c w : Nat) : (readField b c w).2 = c + w := rfl

/-- A field of width `w` reads below `2 ^ w`, short or not. -/
theorem readField_lt (b : List Bool) (c w : Nat) : (readField b c w).1 < 2 ^ w := by
  rw [readField_value]
  refine Nat.lt_of_lt_of_le (bitsValue_lt _) (Nat.pow_le_pow_right (by decide) ?_)
  simp

@[simp] theorem field_length (x w : Nat) : (field x w).length = w := by simp [field]

/-- A field one bit wider: the wider number's upper bits, then its last bit. -/
theorem field_succ (x w : Nat) : field x (w + 1) = field (x / 2) w ++ [x.testBit 0] := by
  rw [field, List.range_succ, List.map_append, field]
  congr 1
  · apply List.map_congr_left
    intro t ht
    rw [List.mem_range] at ht
    have e : w + 1 - 1 - t = (w - 1 - t) + 1 := by omega
    rw [e, Nat.testBit_succ]
  · simp

/-- The bits of a field spell the number laid into it (42_formation_field_packer.md R113). -/
theorem bitsValue_field (x w : Nat) (h : x < 2 ^ w) : bitsValue (field x w) = x := by
  induction w generalizing x with
  | zero => simp [field] at *; omega
  | succ w ih =>
    rw [field_succ, bitsValue_concat, ih (x / 2) (by rw [Nat.pow_succ] at h; omega)]
    have : (x.testBit 0).toNat = x % 2 := by
      rw [Nat.testBit_zero]
      rcases Nat.mod_two_eq_zero_or_one x with e | e <;> simp [e]
    omega

/-- A field that stands whole in a sequence reads as the number laid into it. -/
theorem readField_field (pre post : List Bool) (x w : Nat) (h : x < 2 ^ w) :
    (readField (pre ++ field x w ++ post) pre.length w).1 = x := by
  rw [readField_value, List.append_assoc, List.drop_left, List.take_left' (field_length x w),
    bitsValue_field x w h]

/-! ### Identifiers -/

theorem modulus_lt (id : Word) : modulus id < 100 := by
  unfold modulus
  split
  · exact Nat.mod_lt _ (by decide)
  · decide

@[simp] theorem expand_zero (s nb : Nat) : expand s 0 nb = 0 := rfl

theorem expand_pos {s m : Nat} (nb : Nat) (h : 0 < m) : expand s m nb = m + nb + 100 * s := by
  simp [expand, h]

/-- `Low4` on the slot types the data model allows (42_formation_field_packer.md R127). -/
theorem low4_small (p : Params) {st : Word} (h : st.toNat ≤ 15) : (low4 p st).toNat = st.toNat := by
  rw [low4, if_pos h]
  simp
  omega

end Sys2Proof.Machine
end

