-- ==== Sys2Proof/Laws/Memory.lean ====
section
/-! SUPPORT. Laws/Memory.lean: the contents of a buffer: read after write, and the canonical form. -/

namespace Sys2Proof.Machine

variable {α : Type}

@[simp] theorem Memory.read_nil (i : Nat) : Memory.read ([] : Memory α) i = none := rfl

theorem Memory.read_cons (j i : Nat) (v : α) (t : Memory α) :
    Memory.read ((j, v) :: t) i = if j = i then some v else Memory.read t i := rfl

/-- Nothing is read where no entry stands. -/
theorem Memory.read_none {m : Memory α} {i : Nat} (h : ∀ e ∈ m, e.1 ≠ i) : Memory.read m i = none := by
  induction m with
  | nil => rfl
  | cons a t ih =>
    have ha := h a (by simp)
    rw [Memory.read_cons, if_neg ha]
    exact ih fun e he => h e (by simp [he])

/-- A read after a write to the same index gives the value written. -/
@[simp] theorem Memory.read_write_same (m : Memory α) (i : Nat) (v : α) :
    Memory.read (Memory.write m i v) i = some v := by
  induction m with
  | nil => simp [Memory.write, Memory.read_cons]
  | cons a t ih =>
    obtain ⟨j, w⟩ := a
    simp only [Memory.write]
    split
    · simp [Memory.read_cons]
    · split
      · simp [Memory.read_cons]
      · rename_i _ h
        rw [Memory.read_cons, if_neg (fun e => h e.symm), ih]

/-- A write leaves every other index alone. -/
theorem Memory.read_write_other (m : Memory α) {i k : Nat} (v : α) (h : k ≠ i) :
    Memory.read (Memory.write m i v) k = Memory.read m k := by
  induction m with
  | nil => simp [Memory.write, Memory.read_cons, h.symm]
  | cons a t ih =>
    obtain ⟨j, w⟩ := a
    simp only [Memory.write]
    split
    · simp [Memory.read_cons, h.symm]
    · split
      · rename_i _ e
        subst e
        simp [Memory.read_cons, h.symm]
      · simp [Memory.read_cons, ih]

/-- The entries of a written memory: the new one and old ones. -/
theorem Memory.mem_write {m : Memory α} {i : Nat} {v : α} {e : Nat × α}
    (h : e ∈ Memory.write m i v) : e = (i, v) ∨ e ∈ m := by
  induction m with
  | nil => simpa [Memory.write] using h
  | cons a t ih =>
    obtain ⟨j, w⟩ := a
    simp only [Memory.write] at h
    split at h
    · simpa using h
    · split at h
      · simp only [List.mem_cons] at h ⊢
        tauto
      · simp only [List.mem_cons] at h ⊢
        rcases h with h | h
        · tauto
        · rcases ih h with h | h <;> tauto

/-- A write keeps the canonical form. -/
theorem Memory.write_wf {m : Memory α} (h : Memory.wf m) (i : Nat) (v : α) :
    Memory.wf (Memory.write m i v) := by
  induction m with
  | nil => simp [Memory.write, Memory.wf]
  | cons a t ih =>
    obtain ⟨j, w⟩ := a
    obtain ⟨hj, ht⟩ := List.pairwise_cons.1 h
    simp only [Memory.write]
    split
    · rename_i lt
      refine List.pairwise_cons.2 ⟨fun e he => ?_, h⟩
      rcases List.mem_cons.1 he with rfl | he
      · exact lt
      · exact Nat.lt_trans lt (hj e he)
    · split
      · rename_i _ e
        subst e
        exact List.pairwise_cons.2 ⟨hj, ht⟩
      · rename_i nlt ne
        refine List.pairwise_cons.2 ⟨fun e he => ?_, ih ht⟩
        rcases Memory.mem_write he with rfl | he
        · simp only
          omega
        · exact hj e he

/-- A sequence of writes keeps the canonical form. -/
theorem Memory.writeFrom_wf {m : Memory α} (h : Memory.wf m) (k : Nat) (l : List α) :
    Memory.wf (Memory.writeFrom m k l) := by
  induction l generalizing m k with
  | nil => exact h
  | cons v l ih => exact ih (Memory.write_wf h k v) (k + 1)

/-- The entries after a sequence of writes: old ones, or at an index written. -/
theorem Memory.mem_writeFrom {m : Memory α} {k : Nat} {l : List α} {e : Nat × α}
    (h : e ∈ Memory.writeFrom m k l) : e ∈ m ∨ (k ≤ e.1 ∧ e.1 < k + l.length) := by
  induction l generalizing m k with
  | nil => exact .inl h
  | cons v l ih =>
    rcases ih h with h | h
    · rcases Memory.mem_write h with rfl | h
      · right
        simp
      · exact .inl h
    · right
      simp only [List.length_cons]
      omega

/-- What a sequence of writes leaves at an index: the element written there, else what was there. -/
theorem Memory.read_writeFrom (m : Memory α) (k : Nat) (l : List α) (i : Nat) :
    Memory.read (Memory.writeFrom m k l) i
      = if k ≤ i ∧ i < k + l.length then l[i - k]? else Memory.read m i := by
  induction l generalizing m k with
  | nil =>
    have : ¬ (k ≤ i ∧ i < k + ([] : List α).length) := by simp only [List.length_nil]; omega
    simp only [Memory.writeFrom, if_neg this]
  | cons v l ih =>
    rw [Memory.writeFrom, ih]
    rcases Nat.lt_trichotomy i k with h | rfl | h
    · rw [if_neg (by omega), if_neg (by omega), Memory.read_write_other _ _ (by omega)]
    · rw [if_neg (by omega), if_pos (by simp), Memory.read_write_same]
      simp
    · have e : i - k = (i - (k + 1)) + 1 := by omega
      by_cases hl : i < k + (v :: l).length
      · rw [if_pos (by simp at hl; omega), if_pos ⟨by omega, hl⟩, e, List.getElem?_cons_succ]
      · rw [if_neg (by simp at hl; omega), if_neg (fun c => hl c.2), Memory.read_write_other _ _ (by omega)]

/-- Contents made from a sequence read as that sequence. -/
theorem Memory.read_ofListFrom (k : Nat) (l : List α) (i : Nat) :
    Memory.read (Memory.ofListFrom k l) i = if k ≤ i then l[i - k]? else none := by
  induction l generalizing k with
  | nil => simp [Memory.ofListFrom]
  | cons v l ih =>
    rw [Memory.ofListFrom, Memory.read_cons, ih]
    rcases Nat.lt_trichotomy i k with h | rfl | h
    · rw [if_neg (by omega), if_neg (by omega), if_neg (by omega)]
    · simp
    · have e : i - k = (i - (k + 1)) + 1 := by omega
      rw [if_neg (by omega), if_pos (by omega), if_pos (by omega), e, List.getElem?_cons_succ]

/-- The indices of contents made from a sequence. -/
theorem Memory.indices_ofListFrom (k : Nat) (l : List α) :
    (Memory.ofListFrom k l).map Prod.fst = List.range' k l.length := by
  induction l generalizing k with
  | nil => rfl
  | cons v l ih => simp [Memory.ofListFrom, ih, List.range'_succ]

/-- The elements of contents made from a sequence. -/
theorem Memory.elements_ofListFrom (k : Nat) (l : List α) :
    (Memory.ofListFrom k l).map Prod.snd = l := by
  induction l generalizing k with
  | nil => rfl
  | cons v l ih => simp [Memory.ofListFrom, ih]

/-- Contents whose indices are a range are in canonical form. -/
theorem Memory.wf_of_indices {m : Memory α} {k n : Nat} (h : m.map Prod.fst = List.range' k n) :
    Memory.wf m := by
  have p : (m.map Prod.fst).Pairwise (· < ·) := h ▸ List.pairwise_lt_range'
  exact List.pairwise_map.1 p

/-- Contents made from a sequence are in canonical form. -/
theorem Memory.ofListFrom_wf (k : Nat) (l : List α) : Memory.wf (Memory.ofListFrom k l) :=
  Memory.wf_of_indices (Memory.indices_ofListFrom k l)

/-- Contents made from an ordered sequence are ordered, and in canonical form. -/
theorem Memory.pairwise_ofListFrom {R : α → α → Prop} (k : Nat) {l : List α} (h : l.Pairwise R) :
    (Memory.ofListFrom k l).Pairwise fun a b => a.1 < b.1 ∧ R a.2 b.2 := by
  have hR : ((Memory.ofListFrom k l).map Prod.snd).Pairwise R := by
    rw [Memory.elements_ofListFrom]
    exact h
  exact List.Pairwise.and (Memory.ofListFrom_wf k l) (List.pairwise_map.1 hR)

/-- The elements of contents made from a sequence are the sequence's. -/
theorem Memory.mem_ofListFrom {k : Nat} {l : List α} {e : Nat × α} (h : e ∈ Memory.ofListFrom k l) :
    e.2 ∈ l := by
  have := List.mem_map_of_mem (f := Prod.snd) h
  rwa [Memory.elements_ofListFrom] at this

end Sys2Proof.Machine
end

