-- ==== Sys2Proof/Laws/Buffers.lean ====
section
/-! SUPPORT. Laws/Buffers.lean: a buffer as the sequence of its meaningful elements. -/

namespace Sys2Proof.Machine

variable {α : Type}

@[simp] theorem Buf.empty_len : (Buf.empty : Buf α).len = 0 := rfl
@[simp] theorem Buf.empty_mem : (Buf.empty : Buf α).mem = [] := rfl
@[simp] theorem Buf.ofList_nil : Buf.ofList ([] : List α) = Buf.empty := rfl
@[simp] theorem Buf.ofList_mem (l : List α) : (Buf.ofList l).mem = Memory.ofListFrom 0 l := rfl

/-- A buffer has as many meaningful elements as its length register says. -/
@[simp] theorem Buf.seq_length (b : Buf α) (free : Nat → α) : (b.seq free).length = b.len.toNat := by
  simp [Buf.seq]

/-- The meaningful elements, one by one. -/
theorem Buf.seq_getElem? (b : Buf α) (free : Nat → α) (i : Nat) :
    (b.seq free)[i]? = if i < b.len.toNat then some (b.elem free i) else none := by
  simp only [Buf.seq, List.getElem?_map]
  split <;> rename_i h
  · simp [List.getElem?_range h]
  · rw [List.getElem?_eq_none (by simpa using h)]
    rfl

/-- One element of a buffer's sequence, as the host looks at it (10_state.md R27). -/
theorem seq_look_one (l : List α) {i : Nat} (h : i < l.length) : ∃ v, l[i]? = some v ∧ (l.drop i).take 1 = [v] :=
  ⟨l[i], by simp [h], by rw [List.drop_eq_getElem_cons h]; rfl⟩

/-- Writing one element sets it in the sequence and leaves the others (20_memory.md R59). -/
theorem Buf.seq_write (b : Buf α) (free : Nat → α) (i : Nat) (v : α) :
    Buf.seq ⟨b.len, Memory.write b.mem i v⟩ free = (b.seq free).set i v := by
  apply List.ext_getElem?
  intro k
  rw [List.getElem?_set, Buf.seq_getElem?, Buf.seq_getElem?, Buf.seq_length]
  simp only [Buf.elem]
  by_cases h : i = k
  · subst h
    simp
  · rw [if_neg h, Memory.read_write_other _ _ (Ne.symm h)]

/-- The length register of an output buffer counts its elements. -/
theorem Buf.ofList_len {l : List α} (h : l.length < 2 ^ 32) : (Buf.ofList l).len.toNat = l.length := by
  simpa [Buf.ofList] using h

/-- The contents of an output buffer, one by one. -/
theorem Buf.read_ofList (l : List α) (i : Nat) : Memory.read (Buf.ofList l).mem i = l[i]? := by
  simp [Memory.read_ofListFrom]

/-- An output buffer read as a sequence is the sequence it was made from. -/
theorem Buf.seq_ofList {l : List α} (h : l.length < 2 ^ 32) (free : Nat → α) :
    (Buf.ofList l).seq free = l := by
  apply List.ext_getElem?
  intro i
  rw [Buf.seq_getElem?, Buf.ofList_len h, Buf.elem, Buf.read_ofList]
  split <;> rename_i hi
  · simp [List.getElem?_eq_getElem hi]
  · rw [List.getElem?_eq_none (by omega)]

/-- The indices of an output buffer's contents. -/
theorem Buf.indices_ofList {l : List α} (h : l.length < 2 ^ 32) :
    (Buf.ofList l).mem.map Prod.fst = List.range (Buf.ofList l).len.toNat := by
  rw [Buf.ofList_len h, Buf.ofList_mem, Memory.indices_ofListFrom, List.range_eq_range']

/-- The length register after a SET. -/
theorem Buf.set_len {b : Buf α} {l : List α} (h : l.length < 2 ^ 32) : (b.set l).len.toNat = l.length := by
  simpa [Buf.set] using h

/-- A buffer read as a sequence after a SET is the sequence set. -/
theorem Buf.seq_set {b : Buf α} {l : List α} (h : l.length < 2 ^ 32) (free : Nat → α) :
    (b.set l).seq free = l := by
  apply List.ext_getElem?
  intro i
  rw [Buf.seq_getElem?, Buf.set_len h, Buf.elem]
  split <;> rename_i hi
  · have : Memory.read (b.set l).mem i = l[i]? := by
      simp only [Buf.set, Memory.read_writeFrom, Nat.zero_le, true_and, Nat.zero_add, Nat.sub_zero, if_pos hi]
    simp [this, List.getElem?_eq_getElem hi]
  · rw [List.getElem?_eq_none (by omega)]

/-- A buffer whose length is 0 has no element. -/
theorem Buf.seq_of_len_zero {b : Buf α} (h : b.len.toNat = 0) (free : Nat → α) : b.seq free = [] := by
  simp [Buf.seq, h]

@[simp] theorem ibSeq_length (s : State) : s.ibSeq.length = s.ib.len.toNat := by simp [State.ibSeq]
@[simp] theorem ibitSeq_length (s : State) : s.ibitSeq.length = s.ibit.len.toNat := by simp [State.ibitSeq]
@[simp] theorem irecSeq_length (s : State) : s.irecSeq.length = s.irec.len.toNat := by simp [State.irecSeq]
@[simp] theorem obSeq_length (s : State) : s.obSeq.length = s.ob.len.toNat := by simp [State.obSeq]
@[simp] theorem obitSeq_length (s : State) : s.obitSeq.length = s.obit.len.toNat := by simp [State.obitSeq]
@[simp] theorem ointSeq_length (s : State) : s.ointSeq.length = s.oint.len.toNat := by simp [State.ointSeq]
@[simp] theorem orecSeq_length (s : State) : s.orecSeq.length = s.orec.len.toNat := by simp [State.orecSeq]

/-- The integers an `IENC` reads, on a block with the marshaller. -/
theorem iintSeq_length {s : State} (h : s.params.hasIlm = true) : s.iintSeq.length = s.iint.len.toNat := by
  simp [State.iintSeq, h]

end Sys2Proof.Machine
end

