-- ==== Sys2Proof/Laws/Deck.lean ====
section
/-! SUPPORT. Laws/Deck.lean: the deck decoder and the deck encoder, slot by slot. -/

namespace Sys2Proof.Machine

/-! ### Decoding -/

/-- The fields of a slot group lie one behind the other (42_formation_field_packer.md R112). -/
theorem readSlot_eq (b : List Bool) (c : Nat) :
    readSlot b c =
      (⟨(readField b c 7).1, (readField b (c + 7) 4).1,
        ⟨(readField b (c + 11) 7).1, (readField b (c + 18) 7).1, (readField b (c + 25) 7).1,
         (readField b (c + 32) 7).1, (readField b (c + 39) 7).1⟩⟩, c + 46) := by
  simp [readSlot, Nat.add_assoc]

/-- A check whose value is in range changes nothing. -/
theorem outOfRange_inside {counts : Bool} {lo hi v : Nat} (h : counts = true → lo ≤ v ∧ v ≤ hi) :
    outOfRange counts lo hi v = false := by
  cases counts with
  | false => rfl
  | true => simp [outOfRange, h rfl]

/-- On fields of their widths and a slot from 1 to 12 the validation pass changes nothing
(42_formation_field_packer.md R123). -/
theorem validate_expandSlot {s : Nat} (h1 : 1 ≤ s) (h12 : s ≤ 12) {f : SlotFields}
    (hpm : f.pm < 128) (hst : f.st < 16) (h0 : f.em.e0 < 128) (h1' : f.em.e1 < 128) (h2 : f.em.e2 < 128)
    (h3 : f.em.e3 < 128) (h4 : f.em.e4 < 128) (err : Bool) :
    validate f (expandSlot s f err) = expandSlot s f err := by
  have inside (m nb hi : Nat) (hm : m < 128) (hhi : nb + 1327 ≤ hi) :
      outOfRange (decide (0 < m)) nb hi (expand s m nb) = false := by
    refine outOfRange_inside fun hp => ?_
    have hp : 0 < m := by simpa using hp
    rw [expand_pos nb hp]
    omega
  have hs : outOfRange true 0 15 f.st = false := outOfRange_inside fun _ => by omega
  have ip := inside f.pm 10000 99999 hpm (by omega)
  have i0 := inside f.em.e0 20000 99999 h0 (by omega)
  have i1 := inside f.em.e1 20000 99999 h1' (by omega)
  have i2 := inside f.em.e2 20000 99999 h2 (by omega)
  have i3 := inside f.em.e3 20000 99999 h3 (by omega)
  have i4 := inside f.em.e4 20000 99999 h4 (by omega)
  simp only [validate, checkedValue, expandSlot, Five.map, hs, ip, i0, i1, i2, i3, i4]
  simp

/-- The fields a slot read gives are within their widths. -/
theorem readSlot_validate (b : List Bool) (c : Nat) {s : Nat} (h1 : 1 ≤ s) (h12 : s ≤ 12) (err : Bool) :
    validate (readSlot b c).1 (expandSlot s (readSlot b c).1 err) = expandSlot s (readSlot b c).1 err := by
  refine validate_expandSlot h1 h12 ?_ ?_ ?_ ?_ ?_ ?_ ?_ err <;>
    simp only [readSlot_eq] <;> exact readField_lt _ _ _

/-- What slot `s` at cursor `c` contributes to the output (42_formation_field_packer.md R118, R121). -/
def emit (b : List Bool) (s c : Nat) : Option OutRec :=
  if emitted (readSlot b c).1 then some (slotRecord s (expandSlot s (readSlot b c).1 false)) else none

/-- An emitted record is the slot's record. -/
theorem emit_some {b : List Bool} {s c : Nat} {r : OutRec} (h : emit b s c = some r) :
    r = slotRecord s (expandSlot s (readSlot b c).1 false) := by
  unfold emit at h
  split at h
  · exact (Option.some.inj h).symm
  · cases h

/-- What a slot contributes depends on the bits from its cursor on alone. -/
theorem emit_congr {b b' : List Bool} {c : Nat} (e : b.drop c = b'.drop c) (s k : Nat) :
    emit b s (c + k) = emit b' s (c + k) := by
  have field (i w : Nat) : readField b (c + i) w = readField b' (c + i) w := by
    apply Prod.ext
    · rw [readField_value, readField_value, ← List.drop_drop, ← List.drop_drop, e]
    · rfl
  have slot : readSlot b (c + k) = readSlot b' (c + k) := by
    simp only [readSlot_eq, Nat.add_assoc, field]
  simp only [emit, slot]

/-- The decode loop is the emission test slot by slot; with or without validation the error flag stays and the
cursor advances by 46 a slot. -/
theorem decodeSlots_eq (valid : Bool) (b : List Bool) (n s c : Nat) (err : Bool) (h1 : 1 ≤ s)
    (h12 : s + n ≤ 13) :
    decodeSlots valid b n s c err =
      ⟨(List.range n).filterMap fun k => emit b (s + k) (c + 46 * k), err, c + 46 * n⟩ := by
  induction n generalizing s c with
  | zero => rfl
  | succ n ih =>
    have hv : (if valid then validate (readSlot b c).1 (expandSlot s (readSlot b c).1 err)
        else expandSlot s (readSlot b c).1 err) = expandSlot s (readSlot b c).1 err := by
      rw [readSlot_validate b c h1 (by omega)]
      split <;> rfl
    have hrec : slotRecord s (expandSlot s (readSlot b c).1 err)
        = slotRecord s (expandSlot s (readSlot b c).1 false) := rfl
    have herr : (expandSlot s (readSlot b c).1 err).err = err := rfl
    have hc : (readSlot b c).2 = c + 46 := by rw [readSlot_eq]
    have hshift : (List.range n).filterMap (fun k => emit b (s + 1 + k) (c + 46 + 46 * k))
        = ((List.range n).map Nat.succ).filterMap (fun k => emit b (s + k) (c + 46 * k)) := by
      rw [List.filterMap_map]
      refine List.filterMap_congr fun k _ => ?_
      simp only [Function.comp, Nat.succ_eq_add_one]
      congr 1 <;> omega
    simp only [decodeSlots, hv, herr, hc, ih (s + 1) (c + 46) (by omega) (by omega), hrec]
    rw [List.range_succ_eq_map, List.filterMap_cons, hshift]
    simp only [emit, Nat.add_zero, Nat.mul_zero]
    congr 1
    · cases emitted (readSlot b c).1 <;> rfl
    · omega

/-- A deck decode, slot by slot, with or without validation (42_formation_field_packer.md R118, R123). -/
theorem decodeDeck_recs (valid : Bool) (bs : List Byte) :
    (decodeDeck valid bs).recs
      = (List.range 12).filterMap fun k => emit (bytesToBits bs 553) (k + 1) (1 + 46 * k) := by
  unfold decodeDeck
  split <;> rename_i h
  · have hb : bytesToBits bs 553 = [] := by simp [List.eq_nil_of_length_eq_zero h, bytesToBits, bitCount]
    have none : ∀ k ∈ List.range 12, emit (bytesToBits bs 553) (k + 1) (1 + 46 * k) = none := by
      intro k _
      have z (c w : Nat) : (readField [] c w).1 = 0 := by simp [readField_value]
      simp only [emit, hb, readSlot_eq, z]
      rfl
    simp only [List.filterMap_eq_nil_iff.2 none]
  · rw [decodeSlots_eq _ _ _ _ _ _ (by decide) (by decide)]
    refine List.filterMap_congr fun k _ => ?_
    rw [Nat.add_comm 1 k]

/-- A deck decode never reports an error (42_formation_field_packer.md R123). -/
theorem decodeDeck_err (valid : Bool) (bs : List Byte) : (decodeDeck valid bs).err = false := by
  unfold decodeDeck
  split
  · rfl
  · rw [decodeSlots_eq _ _ _ _ _ _ (by decide) (by decide)]

/-- At most twelve records come out. -/
theorem decodeDeck_length (valid : Bool) (bs : List Byte) : (decodeDeck valid bs).recs.length ≤ 12 := by
  rw [decodeDeck_recs]
  exact Nat.le_trans (List.length_filterMap_le _ _) (by simp)

/-- The records that come out are in ascending slot order (42_formation_field_packer.md R121). -/
theorem emit_ascending (b : List Bool) :
    ((List.range 12).filterMap fun k => emit b (k + 1) (1 + 46 * k)).Pairwise
      fun x y => x.slot.toNat < y.slot.toNat := by
  rw [List.pairwise_filterMap]
  refine List.Pairwise.imp ?_ (List.Pairwise.and_mem.1 (List.pairwise_lt_range (n := 12)))
  rintro i j ⟨hi, hj, hij⟩ r hr q hq
  rw [List.mem_range] at hi hj
  rw [emit_some hr, emit_some hq]
  simp only [slotRecord, BitVec.toNat_ofNat]
  omega

/-! ### Encoding -/

/-- Filing records none of which has the key leaves what is held. -/
theorem file_none (pol : DupPolicy) (k : Nat) {recs : List InRec} (held : Option InRec)
    (h : ∀ r ∈ recs, r.slot.toInt ≠ k) : recs.foldl (fileRecord pol k) held = held := by
  induction recs generalizing held with
  | nil => rfl
  | cons a t ih =>
    have ha : fileRecord pol k held a = held := by
      simp [fileRecord, h a (by simp)]
    rw [List.foldl_cons, ha, ih _ fun r hr => h r (by simp [hr])]

/-- Once a record is held, the policy `first` keeps it. -/
theorem file_first (k : Nat) (recs : List InRec) (r : InRec) :
    recs.foldl (fileRecord .first k) (some r) = some r := by
  induction recs with
  | nil => rfl
  | cons a t ih =>
    have ha : fileRecord .first k (some r) a = some r := by
      unfold fileRecord
      split <;> rfl
    rw [List.foldl_cons, ha, ih]

/-- Seven integers a record (42_formation_field_packer.md R131). -/
theorem recordInts_length (l : List InRec) : (l.flatMap recordInts).length = 7 * l.length := by
  induction l with
  | nil => rfl
  | cons a t ih =>
    simp only [List.flatMap_cons, List.length_append, ih, List.length_cons]
    simp only [recordInts, Five.toList, List.length_cons, List.length_nil]
    omega

/-- The integers of a record list, one by one. -/
theorem recordInts_getElem? (l : List InRec) (j : Nat) {q : Nat} (hq : q < 7) :
    (l.flatMap recordInts)[7 * j + q]? = l[j]?.map fun r => (recordInts r).getD q 0 := by
  induction l generalizing j with
  | nil => simp
  | cons a t ih =>
    have hl : (recordInts a).length = 7 := rfl
    rw [List.flatMap_cons]
    cases j with
    | zero =>
      rw [List.getElem?_append_left (by omega)]
      simp [List.getD_eq_getElem?_getD, List.getElem?_eq_getElem (show q < (recordInts a).length by omega)]
    | succ j =>
      rw [List.getElem?_append_right (by omega), List.getElem?_cons_succ, ← ih]
      congr 1
      omega

@[simp] theorem slotGroup_length (p : Params) (r : InRec) : (slotGroup p r).length = 46 := by
  simp [slotGroup, Five.toList]

/-- Groups of equal length, one behind the other: the `k`-th stands after `k` of them. -/
theorem flatMap_range_split {α : Type} (g : Nat → List α) (len n k : Nat) (hlen : ∀ i, (g i).length = len)
    (hk : k < n) :
    ∃ pre post, (List.range n).flatMap g = pre ++ g k ++ post ∧ pre.length = len * k := by
  induction n with
  | zero => omega
  | succ n ih =>
    rw [List.range_succ, List.flatMap_append]
    rcases Nat.lt_or_ge k n with h | h
    · obtain ⟨pre, post, e, hp⟩ := ih h
      exact ⟨pre, post ++ g n, by simp [e], hp⟩
    · have : k = n := by omega
      subst this
      refine ⟨(List.range k).flatMap g, [], by simp, ?_⟩
      simp [List.length_flatMap, hlen, Nat.mul_comm]

@[simp] theorem deckStream_length (p : Params) (recs : List InRec) : (deckStream p recs).length = 553 := by
  simp [deckStream, List.length_flatMap]

/-- The bytes of a non-empty deck are those of its stream. -/
theorem encodeDeck_nonempty (p : Params) {recs : List InRec} (h : 0 < recs.length) :
    encodeDeck p recs = bitsToBytes (deckStream p recs) := by
  rw [encodeDeck, if_neg (by omega)]

theorem encodeDeck_length (p : Params) {recs : List InRec} (h : 0 < recs.length) :
    (encodeDeck p recs).length = 70 := by
  rw [encodeDeck_nonempty p h, bitsToBytes_length, deckStream_length]

/-- The 553 bits of the payload are the stream (40_byte_bit_adapter.md R95 on the deck). -/
theorem bytesToBits_encodeDeck (p : Params) {recs : List InRec} (h : 0 < recs.length) :
    bytesToBits (encodeDeck p recs) 553 = deckStream p recs := by
  apply List.ext_getElem?
  intro i
  rw [bytesToBits_getElem?, encodeDeck_length p h, bitCount_pos _ (by decide), encodeDeck_nonempty p h,
    streamBit_bitsToBytes]
  have hm : min 553 (8 * 70) = 553 := by decide
  have hl := deckStream_length p recs
  rw [hm]
  split <;> rename_i hi
  · rw [List.getD_eq_getElem?_getD, List.getElem?_eq_getElem (by omega), Option.getD_some]
  · rw [List.getElem?_eq_none (by omega)]

/-- Where the group of slot `k + 1` stands in the stream (42_formation_field_packer.md R112). -/
theorem deckStream_split (p : Params) (recs : List InRec) {k : Nat} (hk : k < 12) :
    ∃ pre post, deckStream p recs = pre ++ slotGroup p (positional p.dupPolicy recs (k + 1)) ++ post ∧
      pre.length = 1 + 46 * k := by
  obtain ⟨pre, post, e, hp⟩ := flatMap_range_split
    (fun k => slotGroup p (positional p.dupPolicy recs (k + 1))) 46 12 k (fun i => by simp) hk
  exact ⟨true :: pre, post, by simp [deckStream, e], by simp [hp]; omega⟩

/-- The seven fields of slot `k + 1`, read back from the stream (42_formation_field_packer.md R112 to R115). -/
theorem readSlot_deckStream (p : Params) (recs : List InRec) {k : Nat} (hk : k < 12) :
    (readSlot (deckStream p recs) (1 + 46 * k)).1 =
      let r := positional p.dupPolicy recs (k + 1)
      ⟨modulus r.pid, (low4 p r.st).toNat,
        ⟨modulus r.ego.e0, modulus r.ego.e1, modulus r.ego.e2, modulus r.ego.e3, modulus r.ego.e4⟩⟩ := by
  obtain ⟨pre, post, e, hp⟩ := deckStream_split p recs hk
  rw [readSlot_eq]
  have m7 (id : Word) : modulus id < 2 ^ 7 := Nat.lt_trans (modulus_lt id) (by decide)
  generalize positional p.dupPolicy recs (k + 1) = r at e ⊢
  have key (a c : List Bool) (x w n : Nat) (hx : x < 2 ^ w) (hs : deckStream p recs = a ++ field x w ++ c)
      (hn : a.length = n) : (readField (deckStream p recs) n w).1 = x := by
    rw [hs, ← hn, readField_field a c x w hx]
  have e' : deckStream p recs = pre ++ (field (modulus r.pid) 7 ++ (field (low4 p r.st).toNat 4 ++
      (field (modulus r.ego.e0) 7 ++ (field (modulus r.ego.e1) 7 ++ (field (modulus r.ego.e2) 7 ++
      (field (modulus r.ego.e3) 7 ++ (field (modulus r.ego.e4) 7 ++ post))))))) := by
    rw [e]
    simp [slotGroup, Five.toList]
  simp only [SlotFields.mk.injEq, Five.mk.injEq]
  refine ⟨?_, ?_, ?_, ?_, ?_, ?_, ?_⟩
  · exact key pre _ _ _ _ (m7 _) (by rw [e', List.append_assoc]) (by omega)
  · exact key (pre ++ field (modulus r.pid) 7) _ _ _ _ (low4 p r.st).isLt
      (by rw [e']; simp only [List.append_assoc]; rfl) (by simp; omega)
  · exact key (pre ++ field (modulus r.pid) 7 ++ field (low4 p r.st).toNat 4) _ _ _ _ (m7 _)
      (by rw [e']; simp only [List.append_assoc]; rfl) (by simp; omega)
  · exact key (pre ++ field (modulus r.pid) 7 ++ field (low4 p r.st).toNat 4 ++ field (modulus r.ego.e0) 7)
      _ _ _ _ (m7 _) (by rw [e']; simp only [List.append_assoc]; rfl) (by simp; omega)
  · exact key (pre ++ field (modulus r.pid) 7 ++ field (low4 p r.st).toNat 4 ++ field (modulus r.ego.e0) 7 ++
      field (modulus r.ego.e1) 7) _ _ _ _ (m7 _) (by rw [e']; simp only [List.append_assoc]; rfl)
      (by simp; omega)
  · exact key (pre ++ field (modulus r.pid) 7 ++ field (low4 p r.st).toNat 4 ++ field (modulus r.ego.e0) 7 ++
      field (modulus r.ego.e1) 7 ++ field (modulus r.ego.e2) 7) _ _ _ _ (m7 _)
      (by rw [e']; simp only [List.append_assoc]; rfl) (by simp; omega)
  · exact key (pre ++ field (modulus r.pid) 7 ++ field (low4 p r.st).toNat 4 ++ field (modulus r.ego.e0) 7 ++
      field (modulus r.ego.e1) 7 ++ field (modulus r.ego.e2) 7 ++ field (modulus r.ego.e3) 7) _ _ _ _ (m7 _)
      (by rw [e']; simp only [List.append_assoc]; rfl) (by simp; omega)

end Sys2Proof.Machine
end

