-- ==== Sys2Proof/Laws/Encoding.lean ====
section
/-! SUPPORT. Laws/Encoding.lean: the fields of a command word, and the words, as numbers. -/

namespace Sys2Proof

theorem fieldOp_toNat (w : Word) : (fieldOp w).toNat = w.toNat % 16 := by simp [fieldOp]

theorem fieldReserved_toNat (w : Word) : (fieldReserved w).toNat = w.toNat / 128 % 512 := by
  simp [fieldReserved, Nat.shiftRight_eq_div_pow]

theorem fieldExpect_toNat (w : Word) : (fieldExpect w).toNat = w.toNat / 65536 := by
  have := w.isLt
  simp [fieldExpect, Nat.shiftRight_eq_div_pow]
  omega

theorem fieldV_eq (w : Word) : fieldV w = decide (w.toNat / 16 % 2 = 1) := by
  simp [fieldV, BitVec.getLsbD, Nat.testBit_eq_decide_div_mod_eq]

theorem fieldR_eq (w : Word) : fieldR w = decide (w.toNat / 32 % 2 = 1) := by
  simp [fieldR, BitVec.getLsbD, Nat.testBit_eq_decide_div_mod_eq]

theorem fieldN_eq (w : Word) : fieldN w = decide (w.toNat / 64 % 2 = 1) := by
  simp [fieldN, BitVec.getLsbD, Nat.testBit_eq_decide_div_mod_eq]

/-- A word splits into the fields of format `C` (30_encoding.md R71). -/
theorem word_split (w : Word) :
    w.toNat = w.toNat / 65536 * 65536 + w.toNat / 128 % 512 * 128 + w.toNat / 64 % 2 * 64
      + w.toNat / 32 % 2 * 32 + w.toNat / 16 % 2 * 16 + w.toNat % 16 := by
  omega

/-- A bit vector is a literal exactly when its number is. -/
theorem bv_eq_iff {n : Nat} (a b : BitVec n) : a = b ↔ a.toNat = b.toNat :=
  ⟨fun h => by rw [h], BitVec.eq_of_toNat_eq⟩

/-- The word of `BTOB e` (40_byte_bit_adapter.md R91). -/
theorem encode_btob_toNat (e : BitVec 16) : (encode (.btob e)).toNat = e.toNat * 65536 + 1 := by
  simp [encode, commandWord]
  omega

/-- The decoder, clause by clause, in numbers (30_encoding.md R75, R76). -/
theorem decode_eq (w : Word) :
    decode w =
      if w.toNat / 128 % 512 ≠ 0 then .illegal .reservedBits
      else
        match selectCommand w with
        | none => .illegal .reservedOp
        | some i =>
          if w.toNat / 16 % 2 = 1 ∧ w.toNat % 16 ≠ 5 then .illegal .flagV
          else if w.toNat / 32 % 2 = 1 ∧ w.toNat % 16 ≠ 6 then .illegal .flagR
          else if w.toNat / 64 % 2 = 1 ∧ w.toNat % 16 ≠ 3 then .illegal .flagN
          else if w.toNat / 65536 ≠ 0 ∧ w.toNat % 16 ≠ 1 then .illegal .expect
          else .command i := by
  simp only [decode, ne_eq, bv_eq_iff, fieldReserved_toNat, fieldOp_toNat, fieldExpect_toNat, fieldV_eq,
    fieldR_eq, fieldN_eq, decide_eq_true_eq]
  rfl

/-- The command an `OP` and the flags select, in numbers. -/
theorem selectCommand_eq (w : Word) :
    selectCommand w =
      if w.toNat % 16 = 1 then some (.btob (fieldExpect w))
      else if w.toNat % 16 = 2 then some .btoy
      else if w.toNat % 16 = 3 then some (if w.toNat / 64 % 2 = 1 then .iencN else .ienc)
      else if w.toNat % 16 = 4 then some .idec
      else if w.toNat % 16 = 5 then some (if w.toNat / 16 % 2 = 1 then .decV else .dec)
      else if w.toNat % 16 = 6 then some (if w.toNat / 32 % 2 = 1 then .encR else .enc)
      else none := by
  simp only [selectCommand, fieldOp_toNat, fieldV_eq, fieldR_eq, fieldN_eq]
  have : w.toNat % 16 < 16 := by omega
  generalize w.toNat % 16 = k at *
  interval_cases k <;> simp

end Sys2Proof
end

