-- ==== Sys2Proof/Laws/PerInstr.lean ====
section
/-! SUPPORT. Laws/PerInstr.lean: statements made per instruction: every encoded word lies in its row of the
opcode table (30_encoding.md R78). -/

namespace Sys2Proof

/-- The `mask` column of 30_encoding.md R78. -/
def Laws.rowMask : Instr → Word
  | .btob _ => 0x0000FFFF
  | .btoy => 0xFFFFFFFF
  | .ienc => 0xFFFFFFFF
  | .iencN => 0xFFFFFFFF
  | .idec => 0xFFFFFFFF
  | .dec => 0xFFFFFFFF
  | .decV => 0xFFFFFFFF
  | .enc => 0xFFFFFFFF
  | .encR => 0xFFFFFFFF

/-- The `match` column of 30_encoding.md R78. -/
def Laws.rowMatch : Instr → Word
  | .btob _ => 0x00000001
  | .btoy => 0x00000002
  | .ienc => 0x00000003
  | .iencN => 0x00000043
  | .idec => 0x00000004
  | .dec => 0x00000005
  | .decV => 0x00000015
  | .enc => 0x00000006
  | .encR => 0x00000026

/-- `w & mask = match` for the word of the command. -/
def Laws.TableRow.Statement (i : Instr) : Prop := encode i &&& Laws.rowMask i = Laws.rowMatch i

theorem Laws.TableRow.btob (e : BitVec 16) : Laws.TableRow.Statement (.btob e) := by
  have h : (encode (.btob e)).toNat = e.toNat * 65536 + 1 := by
    simp [encode, commandWord]
    omega
  show encode (.btob e) &&& 0x0000FFFF = 0x00000001
  apply BitVec.eq_of_toNat_eq
  rw [BitVec.toNat_and, h]
  have m : (e.toNat * 65536 + 1) &&& 65535 = (e.toNat * 65536 + 1) % 65536 :=
    Nat.and_two_pow_sub_one_eq_mod _ 16
  simp only [BitVec.reduceToNat, m]
  omega

theorem Laws.TableRow.btoy : Laws.TableRow.Statement .btoy := by unfold Laws.TableRow.Statement; decide
theorem Laws.TableRow.ienc : Laws.TableRow.Statement .ienc := by unfold Laws.TableRow.Statement; decide
theorem Laws.TableRow.iencN : Laws.TableRow.Statement .iencN := by unfold Laws.TableRow.Statement; decide
theorem Laws.TableRow.idec : Laws.TableRow.Statement .idec := by unfold Laws.TableRow.Statement; decide
theorem Laws.TableRow.dec : Laws.TableRow.Statement .dec := by unfold Laws.TableRow.Statement; decide
theorem Laws.TableRow.decV : Laws.TableRow.Statement .decV := by unfold Laws.TableRow.Statement; decide
theorem Laws.TableRow.enc : Laws.TableRow.Statement .enc := by unfold Laws.TableRow.Statement; decide
theorem Laws.TableRow.encR : Laws.TableRow.Statement .encR := by unfold Laws.TableRow.Statement; decide

end Sys2Proof
end

