-- ==== Sys2Proof/Laws/State.lean ====
section
/-! SUPPORT. Laws/State.lean: one lemma per field per state update, so that no proof unfolds an update. -/

namespace Sys2Proof.Machine

@[simp] theorem beginCommand_params (s : State) : (beginCommand s).params = s.params := rfl
@[simp] theorem beginCommand_ib (s : State) : (beginCommand s).ib = s.ib := rfl
@[simp] theorem beginCommand_ibit (s : State) : (beginCommand s).ibit = s.ibit := rfl
@[simp] theorem beginCommand_iint (s : State) : (beginCommand s).iint = s.iint := rfl
@[simp] theorem beginCommand_irec (s : State) : (beginCommand s).irec = s.irec := rfl
@[simp] theorem beginCommand_ob (s : State) : (beginCommand s).ob = Buf.empty := rfl
@[simp] theorem beginCommand_obit (s : State) : (beginCommand s).obit = Buf.empty := rfl
@[simp] theorem beginCommand_oint (s : State) : (beginCommand s).oint = Buf.empty := rfl
@[simp] theorem beginCommand_orec (s : State) : (beginCommand s).orec = Buf.empty := rfl
@[simp] theorem beginCommand_status (s : State) : (beginCommand s).status = statusWord .ok false := rfl
@[simp] theorem beginCommand_script (s : State) : (beginCommand s).script = s.script := rfl
@[simp] theorem beginCommand_observed (s : State) : (beginCommand s).observed = s.observed := rfl
@[simp] theorem beginCommand_resets (s : State) : (beginCommand s).resets = s.resets := rfl

@[simp] theorem putOb_params (s : State) (l : List Byte) : (putOb s l).params = s.params := rfl
@[simp] theorem putOb_ib (s : State) (l : List Byte) : (putOb s l).ib = s.ib := rfl
@[simp] theorem putOb_ibit (s : State) (l : List Byte) : (putOb s l).ibit = s.ibit := rfl
@[simp] theorem putOb_iint (s : State) (l : List Byte) : (putOb s l).iint = s.iint := rfl
@[simp] theorem putOb_irec (s : State) (l : List Byte) : (putOb s l).irec = s.irec := rfl
@[simp] theorem putOb_ob (s : State) (l : List Byte) : (putOb s l).ob = Buf.ofList l := rfl
@[simp] theorem putOb_obit (s : State) (l : List Byte) : (putOb s l).obit = Buf.empty := rfl
@[simp] theorem putOb_oint (s : State) (l : List Byte) : (putOb s l).oint = Buf.empty := rfl
@[simp] theorem putOb_orec (s : State) (l : List Byte) : (putOb s l).orec = Buf.empty := rfl
@[simp] theorem putOb_status (s : State) (l : List Byte) : (putOb s l).status = statusWord .ok false := rfl
@[simp] theorem putOb_script (s : State) (l : List Byte) : (putOb s l).script = s.script := rfl
@[simp] theorem putOb_observed (s : State) (l : List Byte) : (putOb s l).observed = s.observed := rfl
@[simp] theorem putOb_resets (s : State) (l : List Byte) : (putOb s l).resets = s.resets := rfl

@[simp] theorem putObit_params (s : State) (l : List Bool) : (putObit s l).params = s.params := rfl
@[simp] theorem putObit_ib (s : State) (l : List Bool) : (putObit s l).ib = s.ib := rfl
@[simp] theorem putObit_ibit (s : State) (l : List Bool) : (putObit s l).ibit = s.ibit := rfl
@[simp] theorem putObit_iint (s : State) (l : List Bool) : (putObit s l).iint = s.iint := rfl
@[simp] theorem putObit_irec (s : State) (l : List Bool) : (putObit s l).irec = s.irec := rfl
@[simp] theorem putObit_ob (s : State) (l : List Bool) : (putObit s l).ob = Buf.empty := rfl
@[simp] theorem putObit_obit (s : State) (l : List Bool) : (putObit s l).obit = Buf.ofList l := rfl
@[simp] theorem putObit_oint (s : State) (l : List Bool) : (putObit s l).oint = Buf.empty := rfl
@[simp] theorem putObit_orec (s : State) (l : List Bool) : (putObit s l).orec = Buf.empty := rfl
@[simp] theorem putObit_status (s : State) (l : List Bool) : (putObit s l).status = statusWord .ok false := rfl
@[simp] theorem putObit_script (s : State) (l : List Bool) : (putObit s l).script = s.script := rfl
@[simp] theorem putObit_observed (s : State) (l : List Bool) : (putObit s l).observed = s.observed := rfl
@[simp] theorem putObit_resets (s : State) (l : List Bool) : (putObit s l).resets = s.resets := rfl

@[simp] theorem putOint_params (s : State) (l : List Word) : (putOint s l).params = s.params := rfl
@[simp] theorem putOint_ib (s : State) (l : List Word) : (putOint s l).ib = s.ib := rfl
@[simp] theorem putOint_ibit (s : State) (l : List Word) : (putOint s l).ibit = s.ibit := rfl
@[simp] theorem putOint_iint (s : State) (l : List Word) : (putOint s l).iint = s.iint := rfl
@[simp] theorem putOint_irec (s : State) (l : List Word) : (putOint s l).irec = s.irec := rfl
@[simp] theorem putOint_ob (s : State) (l : List Word) : (putOint s l).ob = Buf.empty := rfl
@[simp] theorem putOint_obit (s : State) (l : List Word) : (putOint s l).obit = Buf.empty := rfl
@[simp] theorem putOint_oint (s : State) (l : List Word) : (putOint s l).oint = Buf.ofList l := rfl
@[simp] theorem putOint_orec (s : State) (l : List Word) : (putOint s l).orec = Buf.empty := rfl
@[simp] theorem putOint_status (s : State) (l : List Word) : (putOint s l).status = statusWord .ok false := rfl
@[simp] theorem putOint_script (s : State) (l : List Word) : (putOint s l).script = s.script := rfl
@[simp] theorem putOint_observed (s : State) (l : List Word) : (putOint s l).observed = s.observed := rfl
@[simp] theorem putOint_resets (s : State) (l : List Word) : (putOint s l).resets = s.resets := rfl

@[simp] theorem putOrec_params (s : State) (l : List OutRec) (h : Bool) : (putOrec s l h).params = s.params := rfl
@[simp] theorem putOrec_ib (s : State) (l : List OutRec) (h : Bool) : (putOrec s l h).ib = s.ib := rfl
@[simp] theorem putOrec_ibit (s : State) (l : List OutRec) (h : Bool) : (putOrec s l h).ibit = s.ibit := rfl
@[simp] theorem putOrec_iint (s : State) (l : List OutRec) (h : Bool) : (putOrec s l h).iint = s.iint := rfl
@[simp] theorem putOrec_irec (s : State) (l : List OutRec) (h : Bool) : (putOrec s l h).irec = s.irec := rfl
@[simp] theorem putOrec_ob (s : State) (l : List OutRec) (h : Bool) : (putOrec s l h).ob = Buf.empty := rfl
@[simp] theorem putOrec_obit (s : State) (l : List OutRec) (h : Bool) : (putOrec s l h).obit = Buf.empty := rfl
@[simp] theorem putOrec_oint (s : State) (l : List OutRec) (h : Bool) : (putOrec s l h).oint = Buf.empty := rfl
@[simp] theorem putOrec_orec (s : State) (l : List OutRec) (h : Bool) : (putOrec s l h).orec = Buf.ofList l := rfl
@[simp] theorem putOrec_status (s : State) (l : List OutRec) (h : Bool) : (putOrec s l h).status = statusWord .ok h := rfl
@[simp] theorem putOrec_script (s : State) (l : List OutRec) (h : Bool) : (putOrec s l h).script = s.script := rfl
@[simp] theorem putOrec_observed (s : State) (l : List OutRec) (h : Bool) : (putOrec s l h).observed = s.observed := rfl
@[simp] theorem putOrec_resets (s : State) (l : List OutRec) (h : Bool) : (putOrec s l h).resets = s.resets := rfl

@[simp] theorem takeFault_params (s : State) (c : StatusCode) : (takeFault c s).params = s.params := rfl
@[simp] theorem takeFault_ib (s : State) (c : StatusCode) : (takeFault c s).ib = s.ib := rfl
@[simp] theorem takeFault_ibit (s : State) (c : StatusCode) : (takeFault c s).ibit = s.ibit := rfl
@[simp] theorem takeFault_iint (s : State) (c : StatusCode) : (takeFault c s).iint = s.iint := rfl
@[simp] theorem takeFault_irec (s : State) (c : StatusCode) : (takeFault c s).irec = s.irec := rfl
@[simp] theorem takeFault_ob (s : State) (c : StatusCode) : (takeFault c s).ob = Buf.empty := rfl
@[simp] theorem takeFault_obit (s : State) (c : StatusCode) : (takeFault c s).obit = Buf.empty := rfl
@[simp] theorem takeFault_oint (s : State) (c : StatusCode) : (takeFault c s).oint = Buf.empty := rfl
@[simp] theorem takeFault_orec (s : State) (c : StatusCode) : (takeFault c s).orec = Buf.empty := rfl
@[simp] theorem takeFault_status (s : State) (c : StatusCode) : (takeFault c s).status = statusWord c false := rfl
@[simp] theorem takeFault_script (s : State) (c : StatusCode) : (takeFault c s).script = s.script := rfl
@[simp] theorem takeFault_observed (s : State) (c : StatusCode) : (takeFault c s).observed = s.observed := rfl
@[simp] theorem takeFault_resets (s : State) (c : StatusCode) : (takeFault c s).resets = s.resets := rfl

@[simp] theorem hostReset_params (s : State) : (hostReset s).params = s.params := rfl
@[simp] theorem hostReset_ib (s : State) : (hostReset s).ib = Buf.empty := rfl
@[simp] theorem hostReset_ibit (s : State) : (hostReset s).ibit = Buf.empty := rfl
@[simp] theorem hostReset_iint (s : State) : (hostReset s).iint = Buf.empty := rfl
@[simp] theorem hostReset_irec (s : State) : (hostReset s).irec = Buf.empty := rfl
@[simp] theorem hostReset_ob (s : State) : (hostReset s).ob = Buf.empty := rfl
@[simp] theorem hostReset_obit (s : State) : (hostReset s).obit = Buf.empty := rfl
@[simp] theorem hostReset_oint (s : State) : (hostReset s).oint = Buf.empty := rfl
@[simp] theorem hostReset_orec (s : State) : (hostReset s).orec = Buf.empty := rfl
@[simp] theorem hostReset_status (s : State) : (hostReset s).status = 0 := rfl
@[simp] theorem hostReset_script (s : State) : (hostReset s).script = s.script := rfl
@[simp] theorem hostReset_observed (s : State) : (hostReset s).observed = s.observed := rfl
@[simp] theorem hostReset_resets (s : State) : (hostReset s).resets = s.resets + 1 := rfl

@[simp] theorem resetOf_params (p : Params) : (State.resetOf p).params = p := rfl
@[simp] theorem resetOf_ib (p : Params) : (State.resetOf p).ib = Buf.empty := rfl
@[simp] theorem resetOf_ibit (p : Params) : (State.resetOf p).ibit = Buf.empty := rfl
@[simp] theorem resetOf_iint (p : Params) : (State.resetOf p).iint = Buf.empty := rfl
@[simp] theorem resetOf_irec (p : Params) : (State.resetOf p).irec = Buf.empty := rfl
@[simp] theorem resetOf_ob (p : Params) : (State.resetOf p).ob = Buf.empty := rfl
@[simp] theorem resetOf_obit (p : Params) : (State.resetOf p).obit = Buf.empty := rfl
@[simp] theorem resetOf_oint (p : Params) : (State.resetOf p).oint = Buf.empty := rfl
@[simp] theorem resetOf_orec (p : Params) : (State.resetOf p).orec = Buf.empty := rfl
@[simp] theorem resetOf_status (p : Params) : (State.resetOf p).status = 0 := rfl
@[simp] theorem resetOf_script (p : Params) : (State.resetOf p).script = [] := rfl
@[simp] theorem resetOf_observed (p : Params) : (State.resetOf p).observed = [] := rfl
@[simp] theorem resetOf_resets (p : Params) : (State.resetOf p).resets = 0 := rfl

/-- After reset `IINTLEN` reads 0 on every block (10_state.md R36). -/
@[simp] theorem resetOf_iintLen (p : Params) : (State.resetOf p).iintLen = 0 := by
  unfold State.iintLen
  split <;> rfl

/-! The fields of `STATUS` (10_state.md R29). -/

theorem statusWord_code (c : StatusCode) (h : Bool) : (statusWord c h).extractLsb' 0 2 = c.bits := by
  cases c <;> cases h <;> decide

theorem statusWord_hadErr (c : StatusCode) (h : Bool) : (statusWord c h).getLsbD 2 = h := by
  cases c <;> cases h <;> decide

theorem statusWord_reserved (c : StatusCode) (h : Bool) : (statusWord c h).extractLsb' 3 29 = 0 := by
  cases c <;> cases h <;> decide

theorem statusWord_ok : statusWord .ok false = 1 := by decide
theorem statusWord_invalidInput : statusWord .invalidInput false = 2 := by decide
theorem statusWord_illegalCmd : statusWord .illegalCmd false = 3 := by decide

/-- The code of a state whose `STATUS` was written from its fields. -/
theorem code_of_status {s : State} {c : StatusCode} {h : Bool} (e : s.status = statusWord c h) :
    s.code = c.bits := by
  rw [State.code, e, statusWord_code]

/-- The flag of a state whose `STATUS` was written from its fields. -/
theorem hadErr_of_status {s : State} {c : StatusCode} {h : Bool} (e : s.status = statusWord c h) :
    s.hadErr = h := by
  rw [State.hadErr, e, statusWord_hadErr]

/-- A marshaller command on a block that has the unit. -/
theorem needIlm_present {s : State} (d : State) (h : s.params.hasIlm = true) : needIlm s d = d := by
  simp [needIlm, h]

/-- A marshaller command on a block without the unit (60_exceptions.md R143). -/
theorem needIlm_absent {s : State} (d : State) (h : s.params.hasIlm = false) :
    needIlm s d = takeFault .illegalCmd s := by
  simp [needIlm, h, raiseIllegalCommand]

end Sys2Proof.Machine
end

