-- ==== Sys2Proof/Laws/Step.lean ====
section
/-! SUPPORT. Laws/Step.lean: what a command, a host action and a step can do, said once. -/

namespace Sys2Proof.Machine

open Sys2Proof.Safety

/-! ### Commands -/

@[simp] theorem exec_btob (e : BitVec 16) (s : State) :
    exec (.btob e) s = .next (putObit s (bytesToBits s.ibSeq e.toNat)) := rfl
@[simp] theorem exec_btoy (s : State) : exec .btoy s = .next (putOb s (bitsToBytes s.ibitSeq)) := rfl
@[simp] theorem exec_ienc (s : State) :
    exec .ienc s = .next (needIlm s (putOb s (intsToBytes s.iintSeq))) := rfl
@[simp] theorem exec_iencN (s : State) : exec .iencN s = .next (needIlm s (takeFault .invalidInput s)) := rfl
@[simp] theorem exec_idec (s : State) :
    exec .idec s = .next (needIlm s (putOint s (bytesToInts s.ibSeq))) := rfl
@[simp] theorem exec_enc (s : State) : exec .enc s = .next (putOb s (encodeDeck s.params s.irecSeq)) := rfl
@[simp] theorem exec_encR (s : State) :
    exec .encR s = .next (needIlm s (putOb s (intsToBytes (s.irecSeq.flatMap recordInts)))) := rfl

/-- `DEC` and `DEC.V` leave the same state (42_formation_field_packer.md R123). -/
theorem runDecode_eq (valid : Bool) (s : State) :
    runDecode valid s = putOrec s ((List.range 12).filterMap fun k =>
      emit (bytesToBits s.ibSeq 553) (k + 1) (1 + 46 * k)) false := by
  simp only [runDecode, decodeDeck_recs, decodeDeck_err]

/-- The updates of the commands, as outcomes: the frame of each (10_state.md R35, R37). -/
theorem putOb_outcome (s : State) (l : List Byte) :
    putOb s l = outcome s (Buf.ofList l) Buf.empty Buf.empty Buf.empty 1 := rfl
theorem putObit_outcome (s : State) (l : List Bool) :
    putObit s l = outcome s Buf.empty (Buf.ofList l) Buf.empty Buf.empty 1 := rfl
theorem putOint_outcome (s : State) (l : List Word) :
    putOint s l = outcome s Buf.empty Buf.empty (Buf.ofList l) Buf.empty 1 := rfl
theorem putOrec_outcome (s : State) (l : List OutRec) :
    putOrec s l false = outcome s Buf.empty Buf.empty Buf.empty (Buf.ofList l) 1 := rfl
theorem takeFault_outcome (s : State) (c : StatusCode) :
    takeFault c s = outcome s Buf.empty Buf.empty Buf.empty Buf.empty (statusWord c false) := rfl

/-- A word that encodes no command takes `IllegalCommand` (60_exceptions.md R143). -/
theorem runCommand_illegal {w : Word} {why : IllegalReason} (h : decode w = .illegal why) (s : State) :
    runCommand w s = .next (takeFault .illegalCmd s) := by
  simp [runCommand, h, raiseIllegalCommand]

theorem runCommand_command {w : Word} {i : Instr} (h : decode w = .command i) (s : State) :
    runCommand w s = exec i s := by
  simp [runCommand, h]

/-- What a `CMD` write can leave: a fault, or a result in one of the output buffers (30_encoding.md R75). -/
theorem runCommand_cases (w : Word) (s : State) :
    (∃ c, (c = .illegalCmd ∨ c = .invalidInput) ∧ runCommand w s = .next (takeFault c s)) ∨
    (∃ e : BitVec 16, runCommand w s = .next (putObit s (bytesToBits s.ibSeq e.toNat))) ∨
    runCommand w s = .next (putOb s (bitsToBytes s.ibitSeq)) ∨
    (s.params.hasIlm = true ∧ runCommand w s = .next (putOb s (intsToBytes s.iintSeq))) ∨
    (s.params.hasIlm = true ∧ runCommand w s = .next (putOint s (bytesToInts s.ibSeq))) ∨
    (∃ valid, runCommand w s = .next (runDecode valid s)) ∨
    runCommand w s = .next (putOb s (encodeDeck s.params s.irecSeq)) ∨
    (s.params.hasIlm = true ∧
      runCommand w s = .next (putOb s (intsToBytes (s.irecSeq.flatMap recordInts)))) := by
  cases hd : decode w with
  | illegal why => exact .inl ⟨_, .inl rfl, runCommand_illegal hd s⟩
  | command i =>
    rw [runCommand_command hd]
    cases hilm : s.params.hasIlm with
    | false =>
      cases i with
      | btob e => exact .inr (.inl ⟨e, rfl⟩)
      | btoy => exact .inr (.inr (.inl rfl))
      | dec => exact .inr (.inr (.inr (.inr (.inr (.inl ⟨false, rfl⟩)))))
      | decV => exact .inr (.inr (.inr (.inr (.inr (.inl ⟨true, rfl⟩)))))
      | enc => exact .inr (.inr (.inr (.inr (.inr (.inr (.inl rfl))))))
      | ienc | iencN | idec | encR =>
        refine .inl ⟨.illegalCmd, .inl rfl, ?_⟩
        simp [needIlm_absent _ hilm]
    | true =>
      cases i with
      | btob e => exact .inr (.inl ⟨e, rfl⟩)
      | btoy => exact .inr (.inr (.inl rfl))
      | dec => exact .inr (.inr (.inr (.inr (.inr (.inl ⟨false, rfl⟩)))))
      | decV => exact .inr (.inr (.inr (.inr (.inr (.inl ⟨true, rfl⟩)))))
      | enc => exact .inr (.inr (.inr (.inr (.inr (.inr (.inl rfl))))))
      | ienc => simp [needIlm_present _ hilm]
      | iencN => exact .inl ⟨.invalidInput, .inr rfl, by simp [needIlm_present _ hilm]⟩
      | idec => simp [needIlm_present _ hilm]
      | encR => simp [needIlm_present _ hilm]

/-! ### Steps and runs -/

/-- With no host action left nothing changes; else the step is the first action. -/
theorem step_cases (s : State) :
    (s.script = [] ∧ step s = .next s) ∨
    ∃ a rest, s.script = a :: rest ∧ step s = act a { s with script := rest } := by
  cases h : s.script with
  | nil => exact .inl ⟨rfl, by simp [step, stepScript, h]⟩
  | cons a rest => exact .inr ⟨a, rest, rfl, by simp [step, stepScript, h]⟩

theorem step_cons {s : State} {a : HostAction} {rest : List HostAction} (h : s.script = a :: rest) :
    step s = act a { s with script := rest } := by
  simp [step, stepScript, h]

/-- A run is its first action, and from there the rest. -/
theorem run_cons (s : State) (a : HostAction) (l : List HostAction) :
    run s (a :: l) = match act a { s with script := l } with
      | .next t => Host.Core.run Sys2Proof.core l.length t
      | .fault r => .fault r
      | .refused r => .refused r := by
  rw [← step_cons (s := { s with script := a :: l }) rfl]
  simp only [run, List.length_cons, Host.Core.run]
  have e : Sys2Proof.core.step { s with script := a :: l } = step { s with script := a :: l } := rfl
  rw [e]
  cases step { s with script := a :: l } <;> rfl

/-- A run whose first action answers a next state goes on from there. -/
theorem run_next {s t : State} {a : HostAction} {l : List HostAction}
    (h : act a { s with script := l } = .next t) (ht : t.script = l) : run s (a :: l) = run t l := by
  rw [run_cons, h]
  subst ht
  rfl

@[simp] theorem run_nil (s : State) : run s [] = .next { s with script := [] } := rfl

/-- A host write of `CMD` runs the word (10_state.md R28). -/
theorem act_writeCmd (w : Word) (s : State) : act (.writeReg 0 w) s = runCommand w s := rfl

/-- Issuing a command runs it, once its word decodes to it. -/
theorem act_issue {i : Instr} (h : decode (encode i) = .command i) (s : State) : act (issue i) s = exec i s := by
  rw [issue, act_writeCmd, runCommand_command h]

/-- The state after `OB` was left holding `l` and copied to `IB`, the rest of the block untouched. -/
def afterCopy (s : State) (l : List Byte) : State :=
  { outcome s (Buf.ofList l) Buf.empty Buf.empty Buf.empty 1 with ib := s.ib.set l, script := [] }

theorem afterCopy_ibSeq (s : State) {l : List Byte} (h : l.length < 2 ^ 32) : (afterCopy s l).ibSeq = l := by
  simp only [State.ibSeq, afterCopy, Buf.seq_set h]

/-- A command that leaves `l` in `OB`, the copy, a second command: the run of the spec's round trips
(95_test_vectors.md P1 to P3). -/
theorem run_copy_run {s t : State} {i j : Instr} {l : List Byte} (hi : decode (encode i) = .command i)
    (hj : decode (encode j) = .command j) (h32 : l.length < 2 ^ 32) (hcap : l.length ≤ s.params.ibCap)
    (first : ∀ q, exec i { s with script := q } = .next (putOb { s with script := q } l))
    (second : exec j (afterCopy s l) = .next t) (ht : t.script = []) :
    run s [issue i, .copyObToIb, issue j] = .next t := by
  have hc : act .copyObToIb { putOb { s with script := [.copyObToIb, issue j] } l with script := [issue j] }
      = .next { afterCopy s l with script := [issue j] } := by
    have e : ({ putOb { s with script := [.copyObToIb, issue j] } l with script := [issue j] } : State).obSeq
        = l := Buf.seq_ofList h32 _
    simp only [act, hostSetIb, e]
    exact if_pos hcap
  rw [run_next (t := putOb { s with script := [.copyObToIb, issue j] } l)
    ((act_issue hi _).trans (first _)) rfl, run_next hc rfl,
    run_next (t := t) ((act_issue hj _).trans second) ht, run_nil]
  cases t
  simp_all

end Sys2Proof.Machine
end

