-- ==== Sys2Proof/Tests/Slice0.lean ====
section
/-! SUPPORT. Tests/Slice0.lean: small tests with results taken from spec/95_test_vectors.md, and for every
obligation with hypotheses a state and operands that meet them. -/

namespace Sys2Proof.Tests

open Sys2Proof.Machine Sys2Proof.Safety

/-! ### Small states -/

/-- The fixed block just after reset with the host about to do `l`. -/
def withScript (l : List HostAction) : State := { State.reset with script := l }

/-- The same without the marshaller. -/
def bareParams : Params := { Params.standard with hasIlm := false }

def bare : State := State.resetOf bareParams

def withBytes (l : List Byte) : State := { State.reset with ib := Buf.ofList l }

def withBits (l : List Bool) : State := { State.reset with ibit := Buf.ofList l }

def withInts (l : List Word) : State := { State.reset with iint := Buf.ofList l }

def withRecs (l : List InRec) : State := { State.reset with irec := Buf.ofList l }

/-- The same records on a block that keeps the first of two records with one key. -/
def withRecsFirst (l : List InRec) : State :=
  { withRecs l with params := { Params.standard with dupPolicy := .first } }

/-- The next state of an outcome. -/
def after (o : Host.Outcome State Fault Refusal) : Option State :=
  match o with
  | .next t => some t
  | .fault _ => none
  | .refused _ => none

/-- What the word leaves when the host writes it to `CMD` as its next action. -/
def issueWord (s : State) (w : Nat) : Option State := after (step (s.withFetchWord 32 w))

/-- A bit sequence as the spec prints it. -/
def bitsOf (l : List Nat) : List Bool := l.map fun x => decide (x = 1)

def zeros (n : Nat) : List Byte := List.replicate n 0

/-! ### Decoding: words written out from the field pattern of 30_encoding.md R71 and R78 -/

theorem test_decode_btob : decode 0b00000000000010010000000000000001 = .command (.btob 9) := by decide
theorem test_decode_btob_553 : decode 0b00000010001010010000000000000001 = .command (.btob 553) := by decide
theorem test_decode_btoy : decode 0b00000000000000000000000000000010 = .command .btoy := by decide
theorem test_decode_ienc : decode 0b00000000000000000000000000000011 = .command .ienc := by decide
theorem test_decode_iencN : decode 0b00000000000000000000000001000011 = .command .iencN := by decide
theorem test_decode_idec : decode 0b00000000000000000000000000000100 = .command .idec := by decide
theorem test_decode_dec : decode 0b00000000000000000000000000000101 = .command .dec := by decide
theorem test_decode_decV : decode 0b00000000000000000000000000010101 = .command .decV := by decide
theorem test_decode_enc : decode 0b00000000000000000000000000000110 = .command .enc := by decide
theorem test_decode_encR : decode 0b00000000000000000000000000100110 = .command .encR := by decide

/-- The illegal words of 95_test_vectors.md, and its nearest legal neighbours. -/
theorem test_illegal_words :
    ([0x00000000, 0x00000007, 0x0000000F, 0x00000012, 0x00010002, 0x02290005, 0x00000025, 0x00000016,
      0x00000036, 0x00000046, 0x00000044, 0x00000085, 0x00008001, 0x00000047].all
        fun w => legal true w == false) = true ∧
    ([0x00000002, 0x00000005, 0x00000015, 0x00000006, 0x00000026, 0x00000004, 0x02290001].all
        fun w => legal true w) = true := by decide

theorem test_table_word : decodeTableWord 32 0x00000026 = some .encR ∧
    decodeTableWord 32 0x00000025 = none := by decide

/-! ### Well-formedness: an ill-formed term for each check -/

theorem test_ill_formed_without_marshaller :
    Instr.wellFormed false .ienc = false ∧ Instr.wellFormed false .iencN = false ∧
    Instr.wellFormed false .idec = false ∧ Instr.wellFormed false .encR = false ∧
    Instr.wellFormed false .dec = true ∧ Instr.wellFormed true .encR = true := by decide

/-- 00_scope.md R7: parameters outside their constraints. -/
theorem test_illegal_params :
    ([{ Params.standard with ibCap := 69 }, { Params.standard with ibCap := 8192 },
      { Params.standard with ibitCap := 552 }, { Params.standard with iintCap := 6 },
      { Params.standard with irecCap := 11 }, { Params.standard with obCap := 511 },
      { Params.standard with obitCap := 4095 }, { Params.standard with ointCap := 127 },
      { Params.standard with orecCap := 11 }].all fun p : Params => !decide p.legal) = true := by decide

/-! ### One command each (95_test_vectors.md) -/

/-- A2. -/
theorem test_btob_nine : (issueWord (withBytes [0x80, 0x01]) 0x00090001).map
    (fun t => (t.obitSeq, t.status)) = some (bitsOf [1, 0, 0, 0, 0, 0, 0, 0, 0], 1) := by decide

/-- A3. -/
theorem test_btob_short : (issueWord (withBytes [0xFF]) 0x000C0001).map
    (fun t => t.obitSeq) = some (bitsOf [1, 1, 1, 1, 1, 1, 1, 1]) := by decide

/-- A9. -/
theorem test_btoy_partial : (issueWord (withBits (bitsOf [1, 0, 1, 0, 0, 1, 0, 1, 1])) 0x00000002).map
    (fun t => (t.obSeq, t.status)) = some ([0xA5, 0x80], 1) := by decide

/-- A10. -/
theorem test_btoy_low_bit : (issueWord (withBits (bitsOf [0, 0, 0, 1])) 0x00000002).map
    (fun t => t.obSeq) = some [0x10] := by decide

/-- M1. -/
theorem test_ienc_signed :
    (issueWord (withInts [1, 0xFFFFFFFF, 0x80000000, 0x7FFFFFFF, 0, 10342]) 0x00000003).map
      (fun t => (t.obSeq, t.status)) = some
        ([0x01, 0x00, 0x00, 0x00, 0xFF, 0xFF, 0xFF, 0xFF, 0x00, 0x00, 0x00, 0x80, 0xFF, 0xFF, 0xFF, 0x7F,
          0x00, 0x00, 0x00, 0x00, 0x66, 0x28, 0x00, 0x00], 1) := by decide

/-- M8. -/
theorem test_ienc_without_marshaller :
    (issueWord bare 0x00000003).map (fun t => (t.ob.len, t.status)) = some (0, 3) := by decide

/-- M3, outputs cleared, the input left alone (program P4). -/
theorem test_iencN_absent_list :
    (issueWord { withInts [7] with ob := Buf.ofList [1, 2], status := 1 } 0x00000043).map
      (fun t => (t.ob.len, t.iintSeq, t.status)) = some (0, [7], 2) := by decide

/-- M8. -/
theorem test_iencN_without_marshaller :
    (issueWord bare 0x00000043).map (fun t => t.status) = some 3 := by decide

/-- M5. -/
theorem test_idec_drops_tail :
    (issueWord (withBytes [0x78, 0x56, 0x34, 0x12, 0xEF, 0xBE, 0xAD, 0xDE, 0x01, 0x02]) 0x00000004).map
      (fun t => t.ointSeq.map BitVec.toInt) = some [305419896, -559038737] := by decide

/-- M6. -/
theorem test_idec_no_group :
    (issueWord (withBytes [0x01, 0x02, 0x03]) 0x00000004).map (fun t => (t.oint.len, t.status))
      = some (0, 1) := by decide

/-- D5. -/
theorem test_dec_short_read :
    (issueWord (withBytes (List.replicate 6 0xFF)) 0x00000005).map (fun t => t.orecSeq) = some
      [⟨1, 10227, 15, ⟨20227, 20227, 20227, 20227, 20227⟩, 1⟩, ⟨2, 10201, 0, ⟨0, 0, 0, 0, 0⟩, 0⟩] := by
  decide +kernel

/-- D9. -/
theorem test_dec_slot_type_alone :
    (issueWord (withBytes (0x80 :: zeros 23 ++ 0x70 :: zeros 45)) 0x00000005).map
      (fun t => (t.orec.len, t.status)) = some (0, 1) := by decide +kernel

/-- D10. -/
theorem test_decV_payload_of_e1 :
    (issueWord (withBytes (0x80 :: zeros 10 ++ [0x02, 0xA2, 0x22, 0x03, 0x18] ++ zeros 54)) 0x00000015).map
      (fun t => (t.orecSeq, t.status)) = some ([⟨3, 10342, 2, ⟨20317, 0, 20399, 0, 0⟩, 1⟩], 1) := by
  decide +kernel

/-- D7, slots 1 and 12. -/
theorem test_decV_largest :
    (issueWord (withBytes (List.replicate 70 0xFF)) 0x00000015).map
      (fun t => (t.orec.len, t.orecSeq[0]?, t.orecSeq[11]?, t.status)) = some
        (12, some ⟨1, 10227, 15, ⟨20227, 20227, 20227, 20227, 20227⟩, 1⟩,
         some ⟨12, 11327, 15, ⟨21327, 21327, 21327, 21327, 21327⟩, 1⟩, 1) := by decide +kernel

/-- E2. -/
theorem test_enc_three_records :
    (issueWord (withRecs [⟨12, 11299, 15, ⟨21299, 21201, 21250, 21277, 21264⟩⟩,
      ⟨1, 10101, 1, ⟨0, 0, 0, 0, 20101⟩⟩, ⟨3, 10342, 2, ⟨20317, 0, 20399, 0, 0⟩⟩]) 0x00000006).map
      (fun t => (t.obSeq, t.status)) = some
        ([0x81, 0x10, 0x00, 0x00, 0x00, 0x02] ++ zeros 5 ++ [0x02, 0xA2, 0x22, 0x03, 0x18] ++ zeros 47 ++
          [0x18, 0xFF, 0x18, 0x16, 0x53, 0x60, 0x00], 1) := by decide +kernel

/-- E9, both policies. -/
theorem test_enc_repeated_key :
    (issueWord (withRecs [⟨2, 10207, 3, ⟨0, 0, 0, 0, 0⟩⟩, ⟨2, 10209, 4, ⟨0, 0, 0, 0, 0⟩⟩]) 0x00000006).map
      (fun t => t.obSeq.take 8) = some [0x80, 0x00, 0x00, 0x00, 0x00, 0x00, 0x25, 0x00] ∧
    (issueWord (withRecsFirst [⟨2, 10207, 3, ⟨0, 0, 0, 0, 0⟩⟩, ⟨2, 10209, 4, ⟨0, 0, 0, 0, 0⟩⟩]) 0x00000006).map
      (fun t => t.obSeq.take 8) = some [0x80, 0x00, 0x00, 0x00, 0x00, 0x00, 0x1C, 0xC0] := by
  decide +kernel

/-- O2. -/
theorem test_encR_whole_values :
    (issueWord (withRecs [⟨1, 99999999, 0xFFFFFFFD, ⟨0, 0, 0, 0, 0xFFFFFFFF⟩⟩]) 0x00000026).map
      (fun t => t.obSeq) = some
        ([0xFF, 0xE0, 0xF5, 0x05, 0xFD, 0xFF, 0xFF, 0xFF] ++ zeros 16 ++ [0xFF, 0xFF, 0xFF, 0xFF]) := by
  decide +kernel

/-- M8. -/
theorem test_encR_without_marshaller :
    (issueWord bare 0x00000026).map (fun t => t.status) = some 3 := by decide

/-! ### States and operands that meet the hypotheses of the obligations -/

/-- One record, as in vector E1. -/
def oneRecord : InRec := ⟨3, 10342, 2, ⟨20317, 0, 20399, 0, 0⟩⟩

/-- A launch with something in every input buffer. -/
def full : State :=
  { State.reset with
    ib := Buf.ofList [0x01, 0x02, 0x03, 0x04, 0x05]
    ibit := Buf.ofList (bitsOf [1, 0, 1, 0, 0, 1, 0, 1, 1])
    iint := Buf.ofList [7, 0xFFFFFFFF]
    irec := Buf.ofList [oneRecord] }

theorem test_meets_LegalWordsAreExactlyThoseOfR76 :
    (withScript [.writeReg 0 0x47]).script = .writeReg 0 0x47 :: [] ∧
    legal (withScript [.writeReg 0 0x47]).params.hasIlm 0x47 = false ∧
    legal false 0x00000003 = false ∧ legal true 0xFFFF0001 = true := by decide

theorem test_meets_CmdWriteRunsTheDecodedCommand :
    (withScript [.writeReg 0 0x06, .readReg 1]).script = .writeReg 0 0x06 :: [.readReg 1] ∧
    decode 0x06 = .command .enc := by decide

theorem test_meets_CommandEndsInOneOfThreeClasses :
    legal full.params.hasIlm 0x00 = false ∧
    (legal full.params.hasIlm 0x43 = true ∧ (0x43 : Word) = 0x00000043) ∧
    (legal full.params.hasIlm 0x03 = true ∧ (0x03 : Word) ≠ 0x00000043) := by decide

theorem test_meets_AbsentListTakesInvalidInput : full.params.hasIlm = true := by decide

theorem test_meets_MarshallerCommandsAreIllegalWithoutTheUnit :
    bare.params.hasIlm = false ∧ Instr.ienc ∈ [Instr.ienc, .iencN, .idec, .encR] ∧
    Instr.encR ∈ [Instr.ienc, .iencN, .idec, .encR] := by decide

/-- Two blocks with the same input sequences and different outputs, `STATUS`, contents beyond a length and
reset counters. -/
theorem test_meets_PostStateDependsOnInputsAlone :
    let t : State := { full with
      ib := ⟨5, Memory.write full.ib.mem 9 0xEE⟩, ob := Buf.ofList [9], status := 2, resets := 3 }
    full.params = t.params ∧ full.ibSeq = t.ibSeq ∧ full.ibitSeq = t.ibitSeq ∧ full.iintSeq = t.iintSeq ∧
    full.irecSeq = t.irecSeq ∧ full.ib ≠ t.ib ∧ full.resets ≠ t.resets := by decide

/-- `launchOk`, the premise of the launches, with the lengths inside, at zero and at the capacity. -/
theorem test_meets_launchOk :
    launchOk full ∧ launchOk State.reset ∧ launchOk bare ∧
    launchOk { State.reset with ib := ⟨512, []⟩, ibit := ⟨4096, []⟩, iint := ⟨128, []⟩, irec := ⟨16, []⟩ } :=
  ⟨by decide, by decide, by decide, by decide⟩

theorem test_meets_BitLengthsAndPrefixes : 0 < 1 ∧ 1 ≤ 1 ∧ 0 < 9 ∧ 9 ≤ 16 := by decide

theorem test_meets_BitRoundTrip :
    launchOk full ∧ (full.ibit.len.toNat + 7) / 8 ≤ full.params.ibCap := by decide

/-- The premises of the marshaller's statements and of its round trip (the last at its boundary). -/
theorem test_meets_IntegerListRoundTrip :
    (launchOk full ∧ full.params.hasIlm = true ∧ 4 * full.iint.len.toNat ≤ full.params.ibCap) ∧
    (let s : State := { State.reset with iint := ⟨128, []⟩ }
     launchOk s ∧ s.params.hasIlm = true ∧ 4 * s.iint.len.toNat ≤ s.params.ibCap) := by decide

theorem test_meets_IencGivesLittleEndianBytes :
    launchOk full ∧ full.params.hasIlm = true ∧ 1 < full.iint.len.toNat ∧ 3 < 4 := by decide

theorem test_meets_IdecReadsLittleEndianGroups :
    launchOk full ∧ full.params.hasIlm = true ∧ 0 < full.ib.len.toNat / 4 ∧
    full.ib.len.toNat / 4 ≤ 1 := by decide

theorem test_meets_ShortReadRule :
    127 < 2 ^ 7 ∧ 0 < 2 ^ 0 ∧
    (bitsOf [1, 0, 1]).length ≤ 3 ∧
    2 < (bitsOf [1, 0, 1]).length ∧ (bitsOf [1, 0, 1]).length < 2 + 7 := by decide

theorem test_meets_ExpansionRange :
    (1 ≤ 1 ∧ 1 ≤ 12 ∧ 0 ≤ 127) ∧ (1 ≤ 12 ∧ 12 ≤ 12 ∧ 127 ≤ 127 ∧ 0 < 127) := by decide

theorem test_meets_SlotTypeFieldOnEncode :
    (0 : Word).toNat ≤ 15 ∧ (15 : Word).toNat ≤ 15 ∧ Params.standard.low4Outside = [] := by decide

theorem test_meets_DecIgnoresReservedBitAndPadding :
    Instr.decV ∈ [Instr.dec, .decV] ∧ 0 < (withBytes [0x7F]).ib.len.toNat ∧
    0 < (withBytes [0xFF]).ib.len.toNat ∧
    (∀ k, 1 ≤ k → k ≤ 552 → (bytesToBits (withBytes [0x7F]).ibSeq 553)[k]? =
      (bytesToBits (withBytes [0xFF]).ibSeq 553)[k]?) ∧
    (bytesToBits (withBytes [0x7F]).ibSeq 553)[0]? ≠ (bytesToBits (withBytes [0xFF]).ibSeq 553)[0]? ∧
    70 ≤ (zeros 70).length := by
  refine ⟨by decide, by decide, by decide, ?_, by decide, by decide⟩
  have e₁ : bytesToBits (withBytes [0x7F]).ibSeq 553 = bitsOf [0, 1, 1, 1, 1, 1, 1, 1] := by decide
  have e₂ : bytesToBits (withBytes [0xFF]).ibSeq 553 = bitsOf [1, 1, 1, 1, 1, 1, 1, 1] := by decide
  rw [e₁, e₂]
  intro k hk _
  match k, hk with
  | j + 1, _ => rfl

theorem test_meets_DecodedRecordsAreInRange : Instr.dec ∈ [Instr.dec, .decV] := by decide

theorem test_meets_EmptyInputsGiveEmptyOutputs :
    State.reset.ib.len.toNat = 0 ∧ Instr.decV ∈ [Instr.dec, .decV] ∧ State.reset.irec.len.toNat = 0 ∧
    State.reset.params.hasIlm = true ∧ bare.irec.len.toNat = 0 := by decide

/-- The premises of `EncLaysOutTwelveSlots`, `EncPayloadShape`, `DeckRoundTripOfAnyRecords`, and those of
`EncRWritesSevenWordsPerRecord`. -/
theorem test_meets_EncLaysOutTwelveSlots :
    launchOk full ∧ 0 < full.irec.len.toNat ∧ 11 < 12 ∧ 39 ∈ [0, 11, 18, 25, 32, 39] ∧
    full.params.hasIlm = true ∧ full.irecSeq[0]? = some oneRecord ∧ 6 < 7 ∧ 3 < 4 ∧
    28 * full.irec.len.toNat ≤ 28 ∧ Instr.dec ∈ [Instr.dec, .decV] := by decide

theorem test_meets_EncPayloadShape :
    launchOk full ∧ 0 < full.irec.len.toNat ∧ 11 < 12 ∧ 0 ∈ [0, 11, 18, 25, 32, 39] := by decide

theorem test_meets_EncRWritesSevenWordsPerRecord :
    launchOk full ∧ full.params.hasIlm = true ∧ full.irecSeq[0]? = some oneRecord ∧ 6 < 7 ∧ 3 < 4 ∧
    28 * full.irec.len.toNat ≤ 28 := by decide

theorem test_meets_PositionalMapBySlotKey :
    (∀ r ∈ [oneRecord], r.slot.toInt ≠ ((1 : Nat) : Int)) ∧
    (oneRecord.slot.toInt = ((3 : Nat) : Int) ∧
      ∀ q ∈ [({ oneRecord with slot := 4 } : InRec)], q.slot.toInt ≠ ((3 : Nat) : Int)) ∧
    (1 ≤ 1 ∧ 12 ≤ 12) ∧
    uniqueKeys [{ oneRecord with slot := 1 }, { oneRecord with slot := 12 }] ∧
    [oneRecord, { oneRecord with slot := 4 }].Perm [{ oneRecord with slot := 4 }, oneRecord] := by
  decide

/-- `uniqueKeys` admits a repeated key just outside 1 to 12 and refuses one at either end of it. -/
theorem test_uniqueKeys_boundary :
    uniqueKeys [{ oneRecord with slot := 13 }, oneRecord, { oneRecord with slot := 13 }] ∧
    uniqueKeys [{ oneRecord with slot := 0 }, { oneRecord with slot := 0 }] ∧
    ¬ uniqueKeys [{ oneRecord with slot := 12 }, oneRecord, { oneRecord with slot := 12 }] ∧
    ¬ uniqueKeys [{ oneRecord with slot := 1 }, { oneRecord with slot := 1 }] := by decide

theorem test_meets_carried : carried oneRecord := by simp [carried, oneRecord, Five.toList]

theorem test_meets_DeckRoundTrip :
    launchOk full ∧ 0 < full.irec.len.toNat ∧ uniqueKeys full.irecSeq ∧ (∀ r ∈ full.irecSeq, carried r) ∧
    Instr.dec ∈ [Instr.dec, .decV] ∧ Instr.decV ∈ [Instr.dec, .decV] := by
  have e : full.irecSeq = [oneRecord] := by decide
  rw [e]
  exact ⟨by decide, by decide, by decide, by simpa using test_meets_carried, by decide, by decide⟩

/-- The boundaries of what `ENC` and `DEC` carry: slot 12, slot type 15, moduli 99 and 1 (vector E2). -/
theorem test_meets_carried_boundary :
    carried ⟨12, 11299, 15, ⟨21299, 21201, 21250, 21277, 0⟩⟩ ∧
    carried ⟨1, 0, 0, ⟨0, 0, 0, 0, 20101⟩⟩ := by simp [carried, Five.toList]

theorem test_meets_DeckRoundTripOfAnyRecords :
    launchOk full ∧ 0 < full.irec.len.toNat ∧ Instr.dec ∈ [Instr.dec, .decV] := by decide

theorem test_meets_CursorEndsAt553 : ([0x00] : List Byte) ≠ [] := by decide

theorem test_meets_HostReadsTheRegisters : 0 ≤ 10 ∧ 10 ≤ 10 ∧ 10 < 11 := by decide

/-- Each clause at the ends of its range. -/
theorem test_meets_HostWritesTheRegisters :
    (512 : Word).toNat ≤ full.params.ibCap ∧ ¬ (513 : Word).toNat ≤ full.params.ibCap ∧
    (4096 : Word).toNat ≤ full.params.ibitCap ∧ ¬ (4097 : Word).toNat ≤ full.params.ibitCap ∧
    full.params.hasIlm = true ∧ (128 : Word).toNat ≤ full.params.iintCap ∧
    ¬ (129 : Word).toNat ≤ full.params.iintCap ∧ bare.params.hasIlm = false ∧
    (16 : Word).toNat ≤ full.params.irecCap ∧ ¬ (17 : Word).toNat ≤ full.params.irecCap ∧
    1 ∈ [1, 2, 7, 8, 9, 10] ∧ 10 ∈ [1, 2, 7, 8, 9, 10] ∧ 10 < 11 := by decide

/-- A block with an element in each of the eight buffers. -/
def loaded : State :=
  { full with
    ob := Buf.ofList [1], obit := Buf.ofList [true], oint := Buf.ofList [1]
    orec := Buf.ofList [⟨1, 10101, 0, ⟨0, 0, 0, 0, 0⟩, 0⟩] }

/-- The last element of each buffer, and the index just beyond it. -/
theorem test_meets_ElementBeyondLengthHasNoValue :
    (full.lenOf .ib ≤ 5 ∧ 4 < full.ib.len.toNat) ∧ 8 < full.ibit.len.toNat ∧
    (full.params.hasIlm = true ∧ 1 < full.iint.len.toNat) ∧ 0 < full.irec.len.toNat ∧
    0 < loaded.ob.len.toNat ∧ 0 < loaded.obit.len.toNat ∧ 0 < loaded.oint.len.toNat ∧
    0 < loaded.orec.len.toNat ∧ bare.params.hasIlm = false := by decide

theorem test_meets_HostSetAndCopyPlaceTheSequence :
    launchOk full ∧ (zeros 512).length ≤ full.params.ibCap ∧ ([] : List Bool).length ≤ full.params.ibitCap ∧
    full.params.hasIlm = true ∧ (List.replicate 128 (5 : Word)).length ≤ full.params.iintCap ∧
    [oneRecord].length ≤ full.params.irecCap ∧ full.ob.len.toNat ≤ full.params.ibCap ∧
    full.orec.len.toNat ≤ full.params.irecCap := by decide +kernel

theorem test_meets_HostElementWriteIsWhatIsRead :
    (511 < full.params.ibCap ∧ full.params.ibCap ≤ 512) ∧ (0 < full.params.ibitCap ∧ full.params.ibitCap ≤ 4096) ∧
    full.params.hasIlm = true ∧ (127 < full.params.iintCap ∧ full.params.iintCap ≤ 128) ∧
    (15 < full.params.irecCap ∧ full.params.irecCap ≤ 16) ∧ bare.params.hasIlm = false := by decide

/-- Each clause one element above the capacity. -/
theorem test_meets_HostSetAboveCapacityIsRefused :
    full.params.ibCap < (List.replicate 513 (0 : Byte)).length ∧
    full.params.ibitCap < (List.replicate 4097 false).length ∧
    (full.params.hasIlm = true ∧ full.params.iintCap < (List.replicate 129 (0 : Word)).length) ∧
    full.params.irecCap < (List.replicate 17 oneRecord).length ∧
    full.params.ibCap < ({ full with ob := ⟨513, []⟩ } : State).ob.len.toNat ∧
    full.params.irecCap < ({ full with orec := ⟨17, []⟩ } : State).orec.len.toNat ∧
    bare.params.hasIlm = false ∧ [(7 : Word)] ≠ [] := by
  simp only [List.length_replicate]
  decide

/-- The last element below each length. -/
theorem test_meets_HostReadReturnsTheLatestWrite :
    (4 < full.params.ibCap ∧ 4 < full.ib.len.toNat) ∧ (8 < full.params.ibitCap ∧ 8 < full.ibit.len.toNat) ∧
    (full.params.hasIlm = true ∧ 1 < full.params.iintCap ∧ 1 < full.iint.len.toNat) ∧
    (0 < full.params.irecCap ∧ 0 < full.irec.len.toNat) := by decide

theorem test_meets_HostReadsHaveNoSideEffect :
    ((∃ n, HostAction.readReg 1 = .readReg n) ∨ (∃ b i, HostAction.readReg 1 = .readElem b i) ∨
      ∃ b, HostAction.readReg 1 = .readBuf b) ∧
    (∃ t, act (.readReg 1) full = .next t) ∧ (∃ t, act (.readElem .ib 4) full = .next t) ∧
    ∃ t, act (.readBuf .ob) full = .next t :=
  ⟨.inl ⟨1, rfl⟩, ⟨_, rfl⟩, ⟨_, rfl⟩, ⟨_, rfl⟩⟩

theorem test_meets_CommandsStraightAfterResetGiveNothing :
    Instr.wellFormed Params.standard.hasIlm .encR = true ∧ Instr.encR ≠ .iencN ∧
    Instr.wellFormed bareParams.hasIlm (.btob 0) = true ∧ Instr.btob 0 ≠ .iencN := by decide

theorem test_meets_QuiescentWhenTheHostStops : full.script = [] := by decide

theorem test_meets_ParametersAreConstant :
    ∃ t, step (withScript [.writeReg 0 0x43]) = .next t := ⟨_, rfl⟩

theorem test_meets_InvariantHoldsAtReset : Params.standard.legal ∧ bareParams.legal := by decide

/-- A state no run from reset with an empty script reaches, with the invariant, that takes a command. -/
theorem test_meets_EveryStepKeepsTheInvariant :
    Inv { full with script := [.writeReg 0 0x06] } ∧
    ∃ t, step { full with script := [.writeReg 0 0x06] } = .next t :=
  ⟨⟨by decide, by decide, by decide, by decide, by decide, by decide⟩, _, rfl⟩

end Sys2Proof.Tests
end

section
/-! SUPPORT. What a `CMD` write leaves, as a function of the inputs alone, and what reset leaves
(10_state.md R20, R35, R36). -/

namespace Sys2Proof.Proofs

open Sys2Proof.Machine Sys2Proof.Safety

/-! ### A command's result depends on the inputs alone -/

/-- Two blocks with the same parameters that hold the same elements below their input lengths: all a
command may read (10_state.md R20, R27). -/
structure SameInputs (s t : State) : Prop where
  params : s.params = t.params
  ib : s.ibSeq = t.ibSeq
  ibit : s.ibitSeq = t.ibitSeq
  iint : s.iintSeq = t.iintSeq
  irec : s.irecSeq = t.irecSeq

theorem SameInputs.refl (s : State) : SameInputs s s := ⟨rfl, rfl, rfl, rfl, rfl⟩

/-- From `s` and from `t` the same outputs and `STATUS` were left, and in each nothing else changed. -/
def SameResult (s t : State) (x y : Host.Outcome State Fault Refusal) : Prop :=
  ∃ ob obit oint orec status,
    x = .next (outcome s ob obit oint orec status) ∧ y = .next (outcome t ob obit oint orec status)

theorem sameResult_putOb (s t : State) (l : List Byte) :
    SameResult s t (.next (putOb s l)) (.next (putOb t l)) := ⟨_, _, _, _, _, rfl, rfl⟩

theorem sameResult_putObit (s t : State) (l : List Bool) :
    SameResult s t (.next (putObit s l)) (.next (putObit t l)) := ⟨_, _, _, _, _, rfl, rfl⟩

theorem sameResult_putOint (s t : State) (l : List Word) :
    SameResult s t (.next (putOint s l)) (.next (putOint t l)) := ⟨_, _, _, _, _, rfl, rfl⟩

theorem sameResult_takeFault (s t : State) (c : StatusCode) :
    SameResult s t (.next (takeFault c s)) (.next (takeFault c t)) := ⟨_, _, _, _, _, rfl, rfl⟩

section
variable {s t : State} (h : SameInputs s t)
include h

theorem sameResult_runDecode (valid : Bool) :
    SameResult s t (.next (runDecode valid s)) (.next (runDecode valid t)) := by
  rw [runDecode_eq, runDecode_eq, h.ib]
  exact ⟨_, _, _, _, _, rfl, rfl⟩

/-- Both blocks have the marshaller and finish alike, or neither has it and both take the same fault. -/
theorem sameResult_needIlm {d e : State} (done : SameResult s t (.next d) (.next e)) :
    SameResult s t (.next (needIlm s d)) (.next (needIlm t e)) := by
  cases hilm : t.params.hasIlm with
  | true => rwa [needIlm_present d (h.params ▸ hilm), needIlm_present e hilm]
  | false =>
    rw [needIlm_absent d (h.params ▸ hilm), needIlm_absent e hilm]
    exact sameResult_takeFault s t .illegalCmd

theorem sameResult_exec (i : Instr) : SameResult s t (exec i s) (exec i t) := by
  cases i with
  | btob e =>
    rw [exec_btob, exec_btob, h.ib]
    exact sameResult_putObit s t _
  | btoy =>
    rw [exec_btoy, exec_btoy, h.ibit]
    exact sameResult_putOb s t _
  | ienc =>
    rw [exec_ienc, exec_ienc, h.iint]
    exact sameResult_needIlm h (sameResult_putOb s t _)
  | iencN => exact sameResult_needIlm h (sameResult_takeFault s t .invalidInput)
  | idec =>
    rw [exec_idec, exec_idec, h.ib]
    exact sameResult_needIlm h (sameResult_putOint s t _)
  | dec => exact sameResult_runDecode h false
  | decV => exact sameResult_runDecode h true
  | enc =>
    rw [exec_enc, exec_enc, h.params, h.irec]
    exact sameResult_putOb s t _
  | encR =>
    rw [exec_encR, exec_encR, h.irec]
    exact sameResult_needIlm h (sameResult_putOb s t _)

theorem sameResult_runCommand (w : Word) : SameResult s t (runCommand w s) (runCommand w t) := by
  cases hd : decode w with
  | illegal why =>
    rw [runCommand_illegal hd, runCommand_illegal hd]
    exact sameResult_takeFault s t .illegalCmd
  | command i =>
    rw [runCommand_command hd, runCommand_command hd]
    exact sameResult_exec h i

end

/-- The frame of a `CMD` write: a next state that differs in the outputs and `STATUS` only
(10_state.md R35). -/
theorem runCommand_frame (w : Word) (s : State) :
    ∃ ob obit oint orec status, runCommand w s = .next (outcome s ob obit oint orec status) := by
  obtain ⟨ob, obit, oint, orec, status, hs, -⟩ := sameResult_runCommand (.refl s) w
  exact ⟨ob, obit, oint, orec, status, hs⟩

/-- Settles O8, from the frame of a `CMD` write. -/
theorem commandsLeaveInputsAlone : Obligations.CommandsLeaveInputsAlone := by
  unfold Obligations.CommandsLeaveInputsAlone
  intro s w
  obtain ⟨ob, obit, oint, orec, status, hs⟩ := runCommand_frame w s
  exact ⟨_, hs, rfl, rfl, rfl, rfl, rfl, rfl, rfl, rfl⟩

/-- Settles O9: both runs leave one result, each over its own block. -/
theorem postStateDependsOnInputsAlone : Obligations.PostStateDependsOnInputsAlone := by
  unfold Obligations.PostStateDependsOnInputsAlone
  intro s t w params ib ibit iint irec
  obtain ⟨ob, obit, oint, orec, status, hs, ht⟩ :=
    sameResult_runCommand ⟨params, ib, ibit, iint, irec⟩ w
  exact ⟨_, _, hs, ht, rfl, rfl, rfl, rfl, rfl⟩

/-! ### Reset -/

theorem resetOf_status_idle (p : Params) : (State.resetOf p).status = statusWord .idle false := by
  rw [resetOf_status]
  decide

/-- After reset every register but `CONFIG` reads 0 (10_state.md R36). -/
theorem readRegister_resetOf (p : Params) {n : Nat} (hn : n ≤ 10) (hconfig : n ≠ 2) :
    readRegister (State.resetOf p) n = some 0 := by
  match n with
  | 1 => exact congrArg some (by decide : (0 : Word) &&& 7 = 0)
  | 2 => exact absurd rfl hconfig
  | 5 => exact congrArg some (resetOf_iintLen p)
  | 0 | 3 | 4 | 6 | 7 | 8 | 9 | 10 => rfl
  | k + 11 => omega

/-- Settles O40, register by register and buffer by buffer. -/
theorem resetState : Obligations.ResetState := by
  unfold Obligations.ResetState
  intro p
  have hstatus := resetOf_status_idle p
  have hregs : ∀ n ∈ [1, 3, 4, 5, 6, 7, 8, 9, 10], n ≤ 10 ∧ n ≠ 2 := by decide
  refine ⟨code_of_status hstatus, hadErr_of_status hstatus, ?_, rfl, rfl,
    fun n hn => readRegister_resetOf p (hregs n hn).1 (hregs n hn).2,
    rfl, rfl, rfl, rfl, rfl, rfl, rfl, rfl⟩
  rw [hstatus, statusWord_reserved]

end Sys2Proof.Proofs
end

section
/-! SUPPORT. Which words are legal, clause by clause and word by word, and what an illegal word does
(30_encoding.md R76; 60_exceptions.md R143). -/

namespace Sys2Proof.Proofs

open Sys2Proof.Machine

/-! ### What the decoder accepts -/

/-- The decoder answers the selected command exactly when every field it does not use is 0
(30_encoding.md R75, R76). -/
theorem decode_eq_command_iff (w : Word) (i : Instr) :
    decode w = .command i ↔
      w.toNat / 128 % 512 = 0 ∧ selectCommand w = some i ∧
      (w.toNat / 16 % 2 = 0 ∨ w.toNat % 16 = 5) ∧ (w.toNat / 32 % 2 = 0 ∨ w.toNat % 16 = 6) ∧
      (w.toNat / 64 % 2 = 0 ∨ w.toNat % 16 = 3) ∧ (w.toNat / 65536 = 0 ∨ w.toNat % 16 = 1) := by
  rw [decode_eq]
  constructor
  · intro hd
    split at hd
    · cases hd
    · split at hd
      · cases hd
      · split_ifs at hd with hv hr hn he
        cases hd
        exact ⟨by omega, by assumption, by omega, by omega, by omega, by omega⟩
  · rintro ⟨hz, hi, hv, hr, hn, he⟩
    rw [if_neg (not_not.mpr hz), hi]
    simp only
    rw [if_neg (by omega), if_neg (by omega), if_neg (by omega), if_neg (by omega)]

/-- `OP` selects a command exactly when it is 1 to 6 (30_encoding.md R72). -/
theorem exists_selectCommand_iff (w : Word) :
    (∃ i, selectCommand w = some i) ↔ 1 ≤ w.toNat % 16 ∧ w.toNat % 16 ≤ 6 := by
  rw [selectCommand_eq]
  split_ifs <;>
    (simp only [Option.some.injEq, exists_eq', exists_false, true_iff, false_iff]; omega)

/-- The marshaller's commands are those of `OP` 3 and 4, and `ENC.R` (30_encoding.md R72). -/
theorem needsIlm_of_selectCommand {w : Word} {i : Instr} (hi : selectCommand w = some i) :
    i.needsIlm = true ↔
      w.toNat % 16 = 3 ∨ w.toNat % 16 = 4 ∨ w.toNat % 16 = 6 ∧ w.toNat / 32 % 2 = 1 := by
  rw [selectCommand_eq] at hi
  split_ifs at hi <;> cases hi <;>
    (simp only [Instr.needsIlm, Bool.false_eq_true, true_iff, false_iff]; omega)

theorem wellFormed_iff (h : Bool) (i : Instr) :
    i.wellFormed h = true ↔ (h = false → i.needsIlm ≠ true) := by
  cases h <;> simp [Instr.wellFormed]

theorem legal_iff_decode (h : Bool) (w : Word) :
    legal h w = true ↔ ∃ i, decode w = .command i ∧ i.wellFormed h = true := by
  cases hd : decode w <;> simp [legal, hd]

/-- `Legal(w)`, clause by clause (30_encoding.md R76). -/
theorem legal_iff (h : Bool) (w : Word) :
    legal h w = true ↔
      w.toNat / 128 % 512 = 0 ∧ (1 ≤ w.toNat % 16 ∧ w.toNat % 16 ≤ 6) ∧
      (w.toNat / 16 % 2 = 0 ∨ w.toNat % 16 = 5) ∧ (w.toNat / 32 % 2 = 0 ∨ w.toNat % 16 = 6) ∧
      (w.toNat / 64 % 2 = 0 ∨ w.toNat % 16 = 3) ∧ (w.toNat / 65536 = 0 ∨ w.toNat % 16 = 1) ∧
      (h = false →
        w.toNat % 16 ≠ 3 ∧ w.toNat % 16 ≠ 4 ∧ ¬ (w.toNat % 16 = 6 ∧ w.toNat / 32 % 2 = 1)) := by
  rw [legal_iff_decode, ← exists_selectCommand_iff]
  constructor
  · rintro ⟨i, hd, hwf⟩
    obtain ⟨hz, hi, hv, hr, hn, he⟩ := (decode_eq_command_iff w i).mp hd
    rw [wellFormed_iff, ne_eq, needsIlm_of_selectCommand hi, not_or, not_or] at hwf
    exact ⟨hz, ⟨i, hi⟩, hv, hr, hn, he, hwf⟩
  · rintro ⟨hz, ⟨i, hi⟩, hv, hr, hn, he, hwf⟩
    refine ⟨i, (decode_eq_command_iff w i).mpr ⟨hz, hi, hv, hr, hn, he⟩, ?_⟩
    rwa [wellFormed_iff, ne_eq, needsIlm_of_selectCommand hi, not_or, not_or]

/-! ### The legal words -/

theorem legal_withIlm_iff (w : Word) :
    legal true w = true ↔ w.toNat % 65536 = 1 ∨ w.toNat ∈ [0x00000002, 0x00000003, 0x00000043,
      0x00000004, 0x00000005, 0x00000015, 0x00000006, 0x00000026] := by
  rw [legal_iff]
  simp only [List.mem_cons, List.not_mem_nil, or_false]
  constructor
  · rintro ⟨hz, hop, hv, hr, hn, he, -⟩
    omega
  · intro hw
    exact ⟨by omega, by omega, by omega, by omega, by omega, by omega, nofun⟩

theorem legal_withoutIlm_iff (w : Word) :
    legal false w = true ↔ w.toNat % 65536 = 1 ∨
      w.toNat ∈ [0x00000002, 0x00000005, 0x00000015, 0x00000006] := by
  rw [legal_iff]
  simp only [List.mem_cons, List.not_mem_nil, or_false, forall_const]
  constructor
  · rintro ⟨hz, hop, hv, hr, hn, he, hilm⟩
    omega
  · intro hw
    exact ⟨by omega, by omega, by omega, by omega, by omega, by omega, by omega⟩

/-! ### What an illegal word does -/

/-- A command the block lacks the unit for takes `IllegalCommand` (60_exceptions.md R143). -/
theorem exec_not_wellFormed {i : Instr} {s : State} (h : i.wellFormed s.params.hasIlm = false) :
    exec i s = .next (takeFault .illegalCmd s) := by
  simp only [Instr.wellFormed, Bool.or_eq_false_iff, Bool.not_eq_false'] at h
  obtain ⟨hneeds, hilm⟩ := h
  cases i with
  | btob | btoy | dec | decV | enc => cases hneeds
  | ienc | iencN | idec | encR => simp [needIlm_absent _ hilm]

theorem runCommand_not_legal {w : Word} {s : State} (h : legal s.params.hasIlm w = false) :
    runCommand w s = .next (takeFault .illegalCmd s) := by
  cases hd : decode w with
  | illegal why => exact runCommand_illegal hd s
  | command i =>
    rw [runCommand_command hd]
    exact exec_not_wellFormed (by simpa [legal, hd] using h)

/-- Settles O2, from the clauses, the two lists and the fault of an illegal word. -/
theorem legalWordsAreExactlyThoseOfR76 : Obligations.LegalWordsAreExactlyThoseOfR76 := by
  unfold Obligations.LegalWordsAreExactlyThoseOfR76
  refine ⟨legal_iff, fun w => ⟨legal_withIlm_iff w, legal_withoutIlm_iff w⟩, ?_⟩
  intro s w rest hscript hlegal
  rw [step_cons hscript, act_writeCmd]
  exact ⟨_, runCommand_not_legal hlegal, code_of_status (takeFault_status ..)⟩

end Sys2Proof.Proofs
end

section
/-! SUPPORT. The byte-bit adapter: `BTOB`, `BTOY`, and the two functions as inverses of each other
(40_byte_bit_adapter.md R91 to R95). -/

namespace Sys2Proof.Proofs

open Sys2Proof.Machine Sys2Proof.Safety

/-! ### Bytes to bits (R91, R94) -/

/-- Bit `i` of a byte sequence, read off the byte's number. -/
theorem streamBit_eq_decide (bs : List Byte) (i : Nat) :
    streamBit bs i = decide ((bs.getD (i / 8) 0).toNat / 2 ^ (7 - i % 8) % 2 = 1) := by
  rw [streamBit_eq, BitVec.getLsbD, Nat.testBit_eq_decide_div_mod_eq]

theorem bitCount_mono (n : Nat) {e e' : Nat} (hpos : 0 < e) (h : e ≤ e') : bitCount n e ≤ bitCount n e' := by
  rw [bitCount_pos n hpos, bitCount_pos n (by omega)]
  omega

/-- Fewer bits of the same bytes are a prefix of more. -/
theorem bytesToBits_prefix {bs : List Byte} {e e' : Nat} (h : bitCount bs.length e ≤ bitCount bs.length e') :
    bytesToBits bs e <+: bytesToBits bs e' := by
  refine List.IsPrefix.map _ ?_
  rw [← Nat.min_eq_left h, ← List.take_range]
  exact List.take_prefix _ _

/-! ### Bits to bytes (R93) -/

/-- A bit sequence spells the sum of the powers of two at its set bits, first bit most significant. -/
theorem bitsValue_map_range (f : Nat → Bool) (n : Nat) :
    bitsValue ((List.range n).map f)
      = ((List.range n).map fun t => if f t = true then 2 ^ (n - 1 - t) else 0).sum := by
  induction n with
  | zero => rfl
  | succ n ih =>
    have double : ((List.range n).map fun t => if f t = true then 2 ^ (n - t) else 0)
        = (List.range n).map fun t => 2 * if f t = true then 2 ^ (n - 1 - t) else 0 := by
      refine List.map_congr_left fun t ht => ?_
      have e : n - t = n - 1 - t + 1 := by
        have := List.mem_range.1 ht
        omega
      rw [e, Nat.pow_succ, Nat.mul_comm, mul_ite, Nat.mul_zero]
    rw [List.range_succ, List.map_append, List.map_singleton, bitsValue_concat, ih, List.map_append,
      List.sum_append, Nat.add_sub_cancel, double, List.sum_map_mul_left]
    cases h : f n <;> simp [h]

theorem packByte_toNat (b : List Bool) (j : Nat) :
    (packByte b j).toNat
      = ((List.range 8).map fun t => if b.getD (8 * j + t) false = true then 2 ^ (7 - t) else 0).sum := by
  have e : packByte b j = BitVec.ofNat 8 (bitsValue ((List.range 8).map fun t => b.getD (8 * j + t) false)) := by
    rw [packByte, bitsValue, List.foldl_map]
  have fits := bitsValue_lt ((List.range 8).map fun t => b.getD (8 * j + t) false)
  rw [List.length_map, List.length_range] at fits
  rw [e, BitVec.toNat_ofNat, Nat.mod_eq_of_lt fits, bitsValue_map_range]

/-! ### The two functions as inverses (R94, R95) -/

/-- The bits of packed bits, one by one: the bits packed, then zeros. -/
theorem bytesToBits_bitsToBytes_getElem? (b : List Bool) (e i : Nat) :
    (bytesToBits (bitsToBytes b) e)[i]?
      = if i < bitCount ((b.length + 7) / 8) e then some (b.getD i false) else none := by
  rw [bytesToBits_getElem?, bitsToBytes_length, streamBit_bitsToBytes]

theorem bytesToBits_bitsToBytes_zero (b : List Bool) :
    bytesToBits (bitsToBytes b) 0 = b ++ List.replicate (8 * ((b.length + 7) / 8) - b.length) false := by
  apply List.ext_getElem?
  intro i
  rw [bytesToBits_bitsToBytes_getElem?, bitCount_zero, List.getD_eq_getElem?_getD, List.getElem?_append]
  by_cases h : i < b.length
  · rw [if_pos (by omega), if_pos h, List.getElem?_eq_getElem h, Option.getD_some]
  · rw [if_neg h, List.getElem?_replicate, List.getElem?_eq_none (by omega), Option.getD_none]
    exact if_congr (by omega) rfl rfl

theorem bitCount_packed_length (m : Nat) : bitCount ((m + 7) / 8) m = m := by
  unfold bitCount
  split <;> omega

/-- As many bits of packed bits as were packed are those bits. -/
theorem bytesToBits_bitsToBytes_length (b : List Bool) : bytesToBits (bitsToBytes b) b.length = b := by
  apply List.ext_getElem?
  intro i
  rw [bytesToBits_bitsToBytes_getElem?, bitCount_packed_length, List.getD_eq_getElem?_getD]
  split <;> rename_i h
  · rw [List.getElem?_eq_getElem h, Option.getD_some]
  · rw [List.getElem?_eq_none (by omega)]

/-- The bits of byte `j`, packed again, are that byte. -/
theorem packByte_bytesToBits_zero {bs : List Byte} {j : Nat} (h : j < bs.length) :
    packByte (bytesToBits bs 0) j = bs[j] := by
  apply BitVec.eq_of_getLsbD_eq
  intro k hk
  have hk' : 7 - (7 - k) = k := by omega
  have hdiv : (8 * j + (7 - k)) / 8 = j := by omega
  have hmod : (8 * j + (7 - k)) % 8 = 7 - k := by omega
  calc (packByte (bytesToBits bs 0) j).getLsbD k
      = (bytesToBits bs 0).getD (8 * j + (7 - k)) false := by
        rw [← packByte_getLsbD _ j (7 - k) (by omega), hk']
    _ = streamBit bs (8 * j + (7 - k)) := by
        rw [List.getD_eq_getElem?_getD, bytesToBits_getElem?, bitCount_zero, if_pos (by omega), Option.getD_some]
    _ = bs[j].getLsbD k := by
        rw [streamBit_eq, hdiv, hmod, hk', List.getD_eq_getElem?_getD, List.getElem?_eq_getElem h, Option.getD_some]

theorem bitsToBytes_bytesToBits_zero (bs : List Byte) : bitsToBytes (bytesToBits bs 0) = bs := by
  apply List.ext_getElem?
  intro j
  have count : (8 * bs.length + 7) / 8 = bs.length := by omega
  rw [bitsToBytes_getElem?, bytesToBits_length, bitCount_zero, count]
  split <;> rename_i h
  · rw [packByte_bytesToBits_zero h, List.getElem?_eq_getElem h]
  · rw [List.getElem?_eq_none (by omega)]

/-- Settles O14, from the prefix of a shorter count and the two inverse laws. -/
theorem bitLengthsAndPrefixes : Obligations.BitLengthsAndPrefixes := by
  unfold Obligations.BitLengthsAndPrefixes
  refine ⟨fun B e e' hpos hle => ⟨?_, ?_, ?_⟩,
    fun b => ⟨bitsToBytes_length b, bytesToBits_bitsToBytes_zero b⟩, bitsToBytes_bytesToBits_zero⟩
  · rw [bytesToBits_length, bitCount_pos _ hpos]
  · exact bytesToBits_prefix (bitCount_mono _ hpos hle)
  · exact bytesToBits_prefix (bitCount_le _ _)

/-! ### The commands -/

theorem decode_encode_btob (e : BitVec 16) : decode (encode (.btob e)) = .command (.btob e) := by
  have hw := encode_btob_toNat e
  have hop : (encode (.btob e)).toNat % 16 = 1 := by omega
  have hexpect : fieldExpect (encode (.btob e)) = e := by
    apply BitVec.eq_of_toNat_eq
    rw [fieldExpect_toNat]
    omega
  refine (decode_eq_command_iff _ _).mpr ⟨by omega, ?_, by omega, by omega, by omega, .inr hop⟩
  rw [selectCommand_eq, if_pos hop, hexpect]

theorem encode_btob (e : BitVec 16) : encode (.btob e) = BitVec.ofNat 32 (e.toNat * 65536 + 1) := by
  apply BitVec.eq_of_toNat_eq
  rw [encode_btob_toNat, BitVec.toNat_ofNat]
  omega

/-- The bits of `IB` fit the length register of `OBIT` (00_scope.md R7). -/
theorem ibSeq_bits_fit {s : State} (h : launchOk s) (e : Nat) : (bytesToBits s.ibSeq e).length < 2 ^ 32 := by
  obtain ⟨⟨-, -, -, -, -, ⟨hob, hob32⟩, -, -⟩, hib, -, -, -⟩ := h
  have hle := bitCount_le s.ib.len.toNat e
  rw [bytesToBits_length, ibSeq_length]
  omega

/-- The packed bits of `IBIT` fit the length register of `OB`: there are no more bytes than bits. -/
theorem ibitSeq_bytes_fit (s : State) : (bitsToBytes s.ibitSeq).length < 2 ^ 32 := by
  have hlt := s.ibit.len.isLt
  rw [bitsToBytes_length, ibitSeq_length]
  omega

/-- Settles O12: `OBIT` is made from the bits of `IB`, counted and read one by one. -/
theorem btobGivesTheLeadingBits : Obligations.BtobGivesTheLeadingBits := by
  unfold Obligations.BtobGivesTheLeadingBits
  intro s e hs n L
  have hL : bitCount s.ibSeq.length e.toNat = L := by rw [ibSeq_length]; rfl
  refine ⟨encode_btob e ▸ decode_encode_btob e, Buf.ofList (bytesToBits s.ibSeq e.toNat), ?_, ?_, fun i => ?_⟩
  · rw [exec_btob, putObit_outcome]
  · rw [Buf.ofList_len (ibSeq_bits_fit hs _), bytesToBits_length, hL]
  · rw [Buf.read_ofList, bytesToBits_getElem?, hL, streamBit_eq_decide]

/-- Settles O13: `OB` is made from the packed bytes, each the sum of its set bits. -/
theorem btoyPacksBitsZeroPadded : Obligations.BtoyPacksBitsZeroPadded := by
  unfold Obligations.BtoyPacksBitsZeroPadded
  refine ⟨by decide, fun s _ => ?_⟩
  intro m
  refine ⟨Buf.ofList (bitsToBytes s.ibitSeq), ?_, ?_, fun j => ?_⟩
  · rw [exec_btoy, putOb_outcome]
  · rw [Buf.ofList_len (ibitSeq_bytes_fit s), bitsToBytes_length, ibitSeq_length]
  · have hread := bitsToBytes_getElem? s.ibitSeq j
    rw [← Buf.read_ofList, ibitSeq_length] at hread
    split <;> rename_i hj
    · exact ⟨_, hread.trans (if_pos hj), packByte_toNat _ _⟩
    · exact hread.trans (if_neg hj)

/-- `OBIT` after a command that left `l` there. -/
theorem obitSeq_putObit (s : State) {l : List Bool} (h : l.length < 2 ^ 32) : (putObit s l).obitSeq = l :=
  Buf.seq_ofList h _

/-- Settles O15: the function law, and the run of the two commands around a copy. -/
theorem bitRoundTrip : Obligations.BitRoundTrip := by
  unfold Obligations.BitRoundTrip
  refine ⟨bytesToBits_bitsToBytes_length, fun s hs hcap => ?_⟩
  have h32 := ibitSeq_bytes_fit s
  have hexpect : (BitVec.ofNat 16 s.ibit.len.toNat).toNat = s.ibitSeq.length := by
    obtain ⟨⟨-, ⟨-, hmax⟩, -⟩, -, hibit, -⟩ := hs
    rw [ibitSeq_length, BitVec.toNat_ofNat]
    omega
  have hback : bytesToBits (afterCopy s (bitsToBytes s.ibitSeq)).ibSeq
      (BitVec.ofNat 16 s.ibit.len.toNat).toNat = s.ibitSeq := by
    rw [afterCopy_ibSeq s h32, hexpect, bytesToBits_bitsToBytes_length]
  refine ⟨putObit (afterCopy s (bitsToBytes s.ibitSeq)) s.ibitSeq,
    run_copy_run (by decide) (decode_encode_btob _) h32 ?_ (fun q => exec_btoy _) ?_ rfl,
    obitSeq_putObit _ ?_⟩
  · rwa [bitsToBytes_length, ibitSeq_length]
  · rw [exec_btob, hback]
  · rw [ibitSeq_length]
    exact s.ibit.len.isLt

end Sys2Proof.Proofs
end

section
/-! SUPPORT. The integer-list marshaller: `IENC`, `IENC.N`, `IDEC`, and the two functions as inverses of
each other (41_integer_list_marshaller.md R101 to R105). -/

namespace Sys2Proof.Proofs

open Sys2Proof.Machine Sys2Proof.Safety

/-! ### The two functions as inverses (R105) -/

/-- The bytes of an integer list by position; past the end both sides are 0. -/
theorem intsToBytes_getD (v : List Word) (j : Nat) {k : Nat} (hk : k < 4) :
    (intsToBytes v).getD (4 * j + k) 0 = BitVec.ofNat 8 ((v.getD j 0).toNat / 256 ^ k) := by
  rw [List.getD_eq_getElem?_getD, intsToBytes_getElem? v j k hk, List.getD_eq_getElem?_getD]
  cases v[j]? <;> simp

/-- Four bytes laid down from an integer assemble to that integer. -/
theorem memRead4_intsToBytes (v : List Word) (j : Nat) :
    memRead4 (intsToBytes v) (4 * j) = (v.getD j 0).toNat := by
  have h0 := intsToBytes_getD v j (k := 0) (by decide)
  have h1 := intsToBytes_getD v j (k := 1) (by decide)
  have h2 := intsToBytes_getD v j (k := 2) (by decide)
  have h3 := intsToBytes_getD v j (k := 3) (by decide)
  have fits := (v.getD j 0).isLt
  rw [Nat.add_zero] at h0
  rw [memRead4, h0, h1, h2, h3]
  simp only [BitVec.toNat_ofNat]
  omega

/-- Byte `k` of four bytes assembled is the byte it was assembled from. -/
theorem ofNat_memRead4_div (bs : List Byte) (a : Nat) {k : Nat} (hk : k < 4) :
    BitVec.ofNat 8 (memRead4 bs a / 256 ^ k) = bs.getD (a + k) 0 := by
  have lt (i : Nat) : (bs.getD i 0).toNat < 256 := (bs.getD i 0).isLt
  have h0 := lt a
  have h1 := lt (a + 1)
  have h2 := lt (a + 2)
  have h3 := lt (a + 3)
  apply BitVec.eq_of_toNat_eq
  rw [BitVec.toNat_ofNat, memRead4]
  interval_cases k
  · rw [Nat.add_zero a]
    omega
  all_goals omega

theorem bytesToInts_intsToBytes (v : List Word) : bytesToInts (intsToBytes v) = v := by
  apply List.ext_getElem?
  intro j
  have count : 4 * v.length / 4 = v.length := by omega
  rw [bytesToInts_getElem?, intsToBytes_length, count, memRead4_intsToBytes, BitVec.ofNat_toNat,
    BitVec.setWidth_eq, List.getD_eq_getElem?_getD]
  split <;> rename_i h
  · rw [List.getElem?_eq_getElem h, Option.getD_some]
  · rw [List.getElem?_eq_none (by omega)]

/-- The other way up to the tail that completes no group of four. -/
theorem intsToBytes_bytesToInts (bs : List Byte) :
    intsToBytes (bytesToInts bs) = bs.take (4 * (bs.length / 4)) := by
  apply List.ext_getElem?
  intro i
  have hi : i = 4 * (i / 4) + i % 4 := by omega
  have hk : i % 4 < 4 := by omega
  generalize i / 4 = j, i % 4 = k at hi hk
  subst hi
  rw [intsToBytes_getElem? _ _ _ hk, bytesToInts_getElem?, List.getElem?_take]
  by_cases h : j < bs.length / 4
  · have inside : 4 * j + k < bs.length := by omega
    have fits := memRead4_lt bs (4 * j)
    rw [if_pos h, if_pos (by omega), Option.map_some, BitVec.toNat_ofNat, Nat.mod_eq_of_lt fits,
      ofNat_memRead4_div bs (4 * j) hk, List.getD_eq_getElem?_getD, List.getElem?_eq_getElem inside,
      Option.getD_some]
  · rw [if_neg h, if_neg (by omega), Option.map_none]

/-! ### The commands -/

/-- `sext_32` of a 32-bit number, as an integer (00_scope.md R11). -/
theorem toInt_ofNat_word {u : Nat} (h : u < 2 ^ 32) :
    (BitVec.ofNat 32 u).toInt = if u < 2147483648 then (u : Int) else (u : Int) - 4294967296 := by
  rw [BitVec.toInt_eq_toNat_cond, BitVec.toNat_ofNat, Nat.mod_eq_of_lt h]
  exact if_congr (by omega) rfl rfl

section
variable {s : State} (hilm : s.params.hasIlm = true)
include hilm

theorem exec_ienc_outcome :
    exec .ienc s
      = .next (outcome s (Buf.ofList (intsToBytes s.iintSeq)) Buf.empty Buf.empty Buf.empty 1) := by
  rw [exec_ienc, needIlm_present _ hilm, putOb_outcome]

theorem exec_iencN_outcome :
    exec .iencN s = .next (outcome s Buf.empty Buf.empty Buf.empty Buf.empty 2) := by
  rw [exec_iencN, needIlm_present _ hilm, takeFault_outcome, statusWord_invalidInput]

theorem exec_idec_outcome :
    exec .idec s
      = .next (outcome s Buf.empty Buf.empty (Buf.ofList (bytesToInts s.ibSeq)) Buf.empty 1) := by
  rw [exec_idec, needIlm_present _ hilm, putOint_outcome]

/-- The bytes of `IINT` fit the length register of `OB` (00_scope.md R7). -/
theorem iintSeq_bytes_fit (hs : launchOk s) : (intsToBytes s.iintSeq).length < 2 ^ 32 := by
  obtain ⟨⟨-, -, -, -, ⟨-, -, hob, -, hob32⟩, -⟩, -, -, hiint, -⟩ := hs
  rw [intsToBytes_length, iintSeq_length hilm]
  omega

end

/-- The integers of `IB` fit the length register of `OINT`: there are no more integers than bytes. -/
theorem ibSeq_ints_fit (s : State) : (bytesToInts s.ibSeq).length < 2 ^ 32 := by
  have hlt := s.ib.len.isLt
  rw [bytesToInts_length, ibSeq_length]
  omega

/-- Settles O6: on a block with the marshaller the command is the fault it takes. -/
theorem absentListTakesInvalidInput : Obligations.AbsentListTakesInvalidInput := by
  unfold Obligations.AbsentListTakesInvalidInput
  exact ⟨by decide, fun _ hilm => exec_iencN_outcome hilm⟩

/-- Settles O16: `OB` is made from the bytes of `IINT`, counted and read one by one. -/
theorem iencGivesLittleEndianBytes : Obligations.IencGivesLittleEndianBytes := by
  unfold Obligations.IencGivesLittleEndianBytes
  refine ⟨by decide, fun s hs hilm => ?_⟩
  intro c
  have hc : s.iintSeq.length = c := iintSeq_length hilm
  refine ⟨_, exec_ienc_outcome hilm, ?_, fun j k hj hk => ?_, fun i hi => ?_⟩
  · rw [Buf.ofList_len (iintSeq_bytes_fit hilm hs), intsToBytes_length, hc]
  · rw [Buf.read_ofList, intsToBytes_getElem? _ _ _ hk, List.getD_eq_getElem?_getD,
      List.getElem?_eq_getElem (by omega), Option.map_some, Option.getD_some]
  · rw [Buf.read_ofList]
    exact List.getElem?_eq_none (by rw [intsToBytes_length, hc]; exact hi)

/-- Settles O17: `OINT` is made from the groups of `IB`, each four bytes assembled and read as signed. -/
theorem idecReadsLittleEndianGroups : Obligations.IdecReadsLittleEndianGroups := by
  unfold Obligations.IdecReadsLittleEndianGroups
  refine ⟨by decide, fun s _ hilm => ?_⟩
  intro n
  have hread (j : Nat) := bytesToInts_getElem? s.ibSeq j
  simp only [← Buf.read_ofList, ibSeq_length] at hread
  refine ⟨_, exec_idec_outcome hilm, ?_, fun j hj => ?_, fun j hj => ?_⟩
  · rw [Buf.ofList_len (ibSeq_ints_fit s), bytesToInts_length, ibSeq_length]
  · exact ⟨_, (hread j).trans (if_pos hj), toInt_ofNat_word (memRead4_lt s.ibSeq (4 * j))⟩
  · exact (hread j).trans (if_neg (Nat.not_lt.mpr hj))

/-- `OINT` after a command that left `l` there. -/
theorem ointSeq_putOint (s : State) {l : List Word} (h : l.length < 2 ^ 32) : (putOint s l).ointSeq = l :=
  Buf.seq_ofList h _

/-- Settles O18: the two function laws, and the run of the two commands around a copy. -/
theorem integerListRoundTrip : Obligations.IntegerListRoundTrip := by
  unfold Obligations.IntegerListRoundTrip
  refine ⟨fun s hs hilm hcap => ?_, bytesToInts_intsToBytes, intsToBytes_bytesToInts⟩
  have h32 := iintSeq_bytes_fit hilm hs
  have hback : bytesToInts (afterCopy s (intsToBytes s.iintSeq)).ibSeq = s.iintSeq := by
    rw [afterCopy_ibSeq s h32, bytesToInts_intsToBytes]
  refine ⟨putOint (afterCopy s (intsToBytes s.iintSeq)) s.iintSeq,
    run_copy_run (by decide) (by decide) h32 ?_ (fun q => ?_) ?_ rfl, ointSeq_putOint _ ?_⟩
  · rwa [intsToBytes_length, iintSeq_length hilm]
  · exact exec_ienc_outcome (s := { s with script := q }) hilm
  · rw [exec_idec, hback]
    exact congrArg _ (needIlm_present _ hilm)
  · rw [iintSeq_length hilm]
    exact s.iint.len.isLt

end Sys2Proof.Proofs
end

section
/-! SUPPORT. The formation field packer, decoding: fields cut short, the slots `DEC` emits, and what of the
payload it ignores (42_formation_field_packer.md R114 to R124). -/

namespace Sys2Proof.Proofs

open Sys2Proof.Machine Sys2Proof.Safety

/-! ### Fields and identifiers (R114 to R116) -/

/-- A field wholly at or beyond the end reads as 0. -/
theorem readField_beyond {b : List Bool} {c : Nat} (w : Nat) (h : b.length ≤ c) : (readField b c w).1 = 0 := by
  rw [readField_value, List.drop_eq_nil_of_le h, List.take_nil, bitsValue_nil]

/-- A field the end falls inside reads as the field made of the bits that are there. -/
theorem readField_cut {b : List Bool} {c w : Nat} (h : b.length ≤ c + w) :
    (readField b c w).1 = (readField b c (b.length - c)).1 := by
  have hdrop : (b.drop c).length = b.length - c := List.length_drop
  rw [readField_value, readField_value, List.take_of_length_le (by omega), List.take_of_length_le (by omega)]

/-- Settles O19, from the value of a field as the bits that are there. -/
theorem shortReadRule : Obligations.ShortReadRule := by
  unfold Obligations.ShortReadRule
  exact ⟨readField_cursor, readField_field, fun _ _ w h => readField_beyond w h,
    fun _ _ _ _ h => readField_cut h.le⟩

/-- A positive identifier is its bit pattern as a number. -/
theorem toInt_of_pos {id : Word} (h : 0 < id.toInt) : id.toInt = id.toNat := by
  rw [BitVec.toInt_eq_toNat_cond] at h ⊢
  split at h <;> rename_i hlt
  · exact if_pos hlt
  · omega

/-- Settles O20: on a positive identifier the signed and the unsigned remainder agree. -/
theorem modulusIsTheLowTwoDigits : Obligations.ModulusIsTheLowTwoDigits := by
  unfold Obligations.ModulusIsTheLowTwoDigits
  refine fun id => ⟨?_, modulus_lt id⟩
  unfold modulus
  split <;> rename_i h
  · rw [toInt_of_pos h, Int.natCast_emod, Nat.cast_ofNat]
  · rfl

/-- Settles O21: the two cases of `Expand`, and the ends of the two ranges. -/
theorem expansionRange : Obligations.ExpansionRange := by
  unfold Obligations.ExpansionRange
  intro s m nb h1 h12 hm
  have hpos (base : Nat) (h : 0 < m) : expand s m base = m + base + 100 * s := expand_pos base h
  refine ⟨fun h => by rw [h, expand_zero], hpos nb, fun h => ?_, fun h => ?_⟩
  all_goals
    rw [hpos _ h]
    omega

/-! ### The records of a deck (R118, R121, R122) -/

/-- The records a bit sequence holds, in slot order: what `DEC` puts in `OREC` (`exec_decode`). -/
def deckRecords (b : List Bool) : List OutRec :=
  (List.range 12).filterMap fun k => emit b (k + 1) (1 + 46 * k)

theorem deckRecords_length_le (b : List Bool) : (deckRecords b).length ≤ 12 :=
  Nat.le_trans (List.length_filterMap_le _ _) (by simp)

/-- `DEC` and `DEC.V` alike (R123). -/
theorem exec_decode {i : Instr} (hi : i ∈ [.dec, .decV]) (s : State) :
    exec i s = .next (putOrec s (deckRecords (bytesToBits s.ibSeq 553)) false) := by
  rcases List.mem_pair.mp hi with rfl | rfl
  · exact congrArg _ (runDecode_eq false s)
  · exact congrArg _ (runDecode_eq true s)

/-- `OREC` after a decode. -/
theorem orecSeq_putOrec_deckRecords (s : State) (b : List Bool) (err : Bool) :
    (putOrec s (deckRecords b) err).orecSeq = deckRecords b :=
  Buf.seq_ofList (Nat.lt_of_le_of_lt (deckRecords_length_le b) (by decide)) _

/-- A slot is left out exactly when its six moduli are 0 (R121). -/
theorem emitted_iff (f : SlotFields) :
    emitted f = true ↔
      ¬ (f.pm = 0 ∧ f.em.e0 = 0 ∧ f.em.e1 = 0 ∧ f.em.e2 = 0 ∧ f.em.e3 = 0 ∧ f.em.e4 = 0) := by
  rw [← Bool.not_eq_false]
  simp [emitted, Five.toList]

/-- An identifier word rebuilt from its modulus (R116). -/
theorem ofNat_expand (s m nb : Nat) :
    BitVec.ofNat 32 (expand s m nb) = if m = 0 then (0 : Word) else BitVec.ofNat 32 (m + nb + 100 * s) := by
  split <;> rename_i h
  · rw [h, expand_zero]
    rfl
  · rw [expand_pos nb (by omega)]

/-- What slot `s` with the group at cursor `c` contributes, field by field at the offsets of R112. -/
theorem emit_eq (b : List Bool) (s c : Nat) :
    emit b s c =
      let g := fun off w => (readField b (c + off) w).1
      let id := fun off nb => if g off 7 = 0 then (0 : Word) else BitVec.ofNat 32 (g off 7 + nb + 100 * s)
      if g 0 7 = 0 ∧ g 11 7 = 0 ∧ g 18 7 = 0 ∧ g 25 7 = 0 ∧ g 32 7 = 0 ∧ g 39 7 = 0 then none
      else some
        { slot := BitVec.ofNat 32 s
          pid := id 0 10000
          st := BitVec.ofNat 32 (g 7 4)
          ego := ⟨id 11 20000, id 18 20000, id 25 20000, id 32 20000, id 39 20000⟩
          en := if 0 < g 7 4 then 1 else 0 } := by
  rw [emit]
  split <;> rename_i hf
  · rw [emitted_iff, readSlot_eq] at hf
    refine Eq.trans ?_ (if_neg hf).symm
    simp only [readSlot_eq, slotRecord, expandSlot, Five.map, ofNat_expand, Nat.add_zero]
  · rw [emitted_iff, not_not, readSlot_eq] at hf
    exact (if_pos hf).symm

/-- Settles O23: both commands leave the deck's records, slot by slot as `emit_eq` says. -/
theorem decEmitsTheNonzeroSlots : Obligations.DecEmitsTheNonzeroSlots := by
  unfold Obligations.DecEmitsTheNonzeroSlots
  refine ⟨by decide, by decide, fun s => ?_⟩
  intro b g ego recs
  have hrecs : deckRecords b = recs := List.filterMap_congr fun k _ => emit_eq b (k + 1) (1 + 46 * k)
  refine ⟨Buf.ofList (deckRecords b), exec_decode (by simp) s, exec_decode (by simp) s, ?_, fun j => ?_⟩
  · rw [Buf.ofList_len (Nat.lt_of_le_of_lt (deckRecords_length_le b) (by decide)), hrecs]
  · rw [Buf.read_ofList, hrecs]

/-! ### What a decode ignores, and what it reports (R117, R123, R124) -/

/-- The reserved bit at stream index 0 contributes to no record. -/
theorem deckRecords_congr {b b' : List Bool} (h : b.drop 1 = b'.drop 1) : deckRecords b = deckRecords b' :=
  List.filterMap_congr fun k _ => emit_congr h (k + 1) (46 * k)

/-- Two deck streams that agree on stream indices 1 to 552 agree beyond the reserved bit. -/
theorem deck_bits_drop_one {B B' : List Byte}
    (h : ∀ k, 1 ≤ k → k ≤ 552 → (bytesToBits B 553)[k]? = (bytesToBits B' 553)[k]?) :
    (bytesToBits B 553).drop 1 = (bytesToBits B' 553).drop 1 := by
  have beyond (C : List Byte) (j : Nat) (hj : 552 ≤ j) : (bytesToBits C 553)[1 + j]? = none := by
    refine List.getElem?_eq_none ?_
    rw [bytesToBits_length, bitCount_pos _ (by decide)]
    omega
  apply List.ext_getElem?
  intro j
  rw [List.getElem?_drop, List.getElem?_drop]
  rcases Nat.lt_or_ge j 552 with hj | hj
  · exact h (1 + j) (by omega) (by omega)
  · rw [beyond B j hj, beyond B' j hj]

/-- Settles O24: the records depend on the bits beyond the reserved one alone. -/
theorem decIgnoresReservedBitAndPadding : Obligations.DecIgnoresReservedBitAndPadding := by
  unfold Obligations.DecIgnoresReservedBitAndPadding
  refine ⟨fun s t i hi _ _ hagree => ?_, fun B hB => ?_⟩
  · have hrecs := deckRecords_congr (deck_bits_drop_one hagree)
    exact ⟨_, _, exec_decode hi s, exec_decode hi t, by rw [putOrec_orec, putOrec_orec, hrecs],
      by rw [putOrec_status, putOrec_status]⟩
  · rw [bytesToBits_length, bitCount_pos _ (by decide)]
    omega

/-- After every `CMD` write `STATUS` holds some code and a clear flag (R123). -/
theorem runCommand_status (w : Word) (s : State) :
    ∃ t c, runCommand w s = .next t ∧ t.status = statusWord c false := by
  rcases runCommand_cases w s with
    ⟨c, -, h⟩ | ⟨e, h⟩ | h | ⟨-, h⟩ | ⟨-, h⟩ | ⟨valid, h⟩ | h | ⟨-, h⟩
  case inr.inr.inr.inr.inr.inl => exact ⟨_, .ok, h, by rw [runDecode_eq, putOrec_status]⟩
  all_goals exact ⟨_, _, h, rfl⟩

/-- Settles O11: both decodes leave one state, and no command sets the flag. -/
theorem validationNeverFires : Obligations.ValidationNeverFires := by
  unfold Obligations.ValidationNeverFires
  refine ⟨fun s => (exec_decode (by simp) s).trans (exec_decode (by simp) s).symm, fun s w => ?_⟩
  obtain ⟨t, c, ht, hstatus⟩ := runCommand_status w s
  exact ⟨t, ht, hadErr_of_status hstatus⟩

end Sys2Proof.Proofs
end

section
/-! SUPPORT. The formation field packer, encoding: the out-of-rule bytes and the shape of a deck's payload
(42_formation_field_packer.md R125 to R131). -/

namespace Sys2Proof.Proofs

open Sys2Proof.Machine Sys2Proof.Safety

/-- Settles O26: each of the four functions gives nothing on nothing. -/
theorem emptyInputsGiveEmptyOutputs : Obligations.EmptyInputsGiveEmptyOutputs := by
  unfold Obligations.EmptyInputsGiveEmptyOutputs
  refine ⟨fun s i h hi => ?_, fun s h => ?_, fun s h hilm => ?_⟩
  · have hib : s.ibSeq = [] := Buf.seq_of_len_zero h _
    have hnone : deckRecords (bytesToBits [] 553) = [] := by decide
    rw [exec_decode hi, hib, hnone]
    rfl
  · have hirec : s.irecSeq = [] := Buf.seq_of_len_zero h _
    rw [exec_enc, hirec]
    rfl
  · have hirec : s.irecSeq = [] := Buf.seq_of_len_zero h _
    rw [exec_encR, needIlm_present _ hilm, hirec]
    rfl

/-! ### The out-of-rule bytes (R131) -/

/-- The bytes of `IREC` on the out-of-rule path fit the length register of `OB` (00_scope.md R7). -/
theorem recordInts_bytes_fit {s : State} (h : launchOk s) :
    (intsToBytes (s.irecSeq.flatMap recordInts)).length < 2 ^ 32 := by
  obtain ⟨⟨-, -, -, -, ⟨-, -, -, hob, hob32⟩, -⟩, -, -, -, hirec⟩ := h
  rw [intsToBytes_length, recordInts_length, irecSeq_length]
  omega

/-- Settles O30: `OB` is made from the bytes of the seven words of each record. -/
theorem encRWritesSevenWordsPerRecord : Obligations.EncRWritesSevenWordsPerRecord := by
  unfold Obligations.EncRWritesSevenWordsPerRecord
  refine ⟨by decide, fun s hs hilm => ?_⟩
  intro n
  have hlen : (intsToBytes (s.irecSeq.flatMap recordInts)).length = 28 * n := by
    rw [intsToBytes_length, recordInts_length, irecSeq_length]
    omega
  refine ⟨Buf.ofList (intsToBytes (s.irecSeq.flatMap recordInts)), ?_, ?_, fun j r q k hr hq hk => ?_,
    fun i hi => ?_⟩
  · rw [exec_encR, needIlm_present _ hilm, putOb_outcome]
  · rw [Buf.ofList_len (recordInts_bytes_fit hs), hlen]
  · have hpos : 28 * j + 4 * q + k = 4 * (7 * j + q) + k := by omega
    rw [Buf.read_ofList, hpos, intsToBytes_getElem? _ _ _ hk, recordInts_getElem? _ _ hq, hr]
    rfl
  · rw [Buf.read_ofList]
    exact List.getElem?_eq_none (by omega)

/-! ### The shape of a payload (R129) -/

/-- A packed byte whose first bit is set. -/
theorem packByte_ge_of_first {b : List Bool} {j : Nat} (h : b.getD (8 * j) false = true) :
    128 ≤ (packByte b j).toNat := by
  have hmsb : (packByte b j).msb = true := by
    rw [BitVec.msb_eq_getLsbD_last]
    exact (packByte_getLsbD b j 0 (by decide)).trans h
  exact BitVec.le_toNat_of_msb_true hmsb

/-- A packed byte of which one bit is left to pack: the others are padding. -/
theorem packByte_of_one_left {b : List Bool} {j : Nat} (h : b.length ≤ 8 * j + 1) :
    packByte b j = 0x00 ∨ packByte b j = 0x80 := by
  have hpad (t : Nat) : b.getD (8 * j + (t + 1)) false = false := by
    rw [List.getD_eq_getElem?_getD, List.getElem?_eq_none (by omega), Option.getD_none]
  have hbyte : (packByte b j).toNat = if b.getD (8 * j + 0) false = true then 128 else 0 := by
    rw [packByte_toNat, List.range_succ_eq_map, List.map_cons, List.map_map, List.sum_cons]
    simp only [Function.comp_def, Nat.succ_eq_add_one, hpad]
    rfl
  split at hbyte
  · exact .inr (BitVec.eq_of_toNat_eq hbyte)
  · exact .inl (BitVec.eq_of_toNat_eq hbyte)

/-- `OB` after a command that left `l` there. -/
theorem obSeq_putOb (s : State) {l : List Byte} (h : l.length < 2 ^ 32) : (putOb s l).obSeq = l :=
  Buf.seq_ofList h _

/-- Byte `j` of a non-empty deck's payload. -/
theorem encodeDeck_getD (p : Params) {recs : List InRec} (h : 0 < recs.length) {j : Nat} (hj : j < 70) :
    (encodeDeck p recs).getD j 0 = packByte (deckStream p recs) j := by
  rw [encodeDeck_nonempty p h, List.getD_eq_getElem?_getD, bitsToBytes_getElem?, deckStream_length, if_pos hj,
    Option.getD_some]

/-- The six 7-bit fields of each slot of the stream are moduli (R115). -/
theorem deckStream_field_le (p : Params) (recs : List InRec) {k off : Nat} (hk : k < 12)
    (hoff : off ∈ [0, 11, 18, 25, 32, 39]) : (readField (deckStream p recs) (1 + 46 * k + off) 7).1 ≤ 99 := by
  have hfields := readSlot_deckStream p recs hk
  rw [readSlot_eq] at hfields
  simp only [SlotFields.mk.injEq, Five.mk.injEq] at hfields
  obtain ⟨h0, -, h11, h18, h25, h32, h39⟩ := hfields
  have bound {x : Nat} {id : Word} (hx : x = modulus id) : x ≤ 99 := hx ▸ Nat.le_of_lt_succ (modulus_lt id)
  simp only [List.mem_cons, List.not_mem_nil, or_false] at hoff
  rcases hoff with rfl | rfl | rfl | rfl | rfl | rfl
  exacts [bound h0, bound h11, bound h18, bound h25, bound h32, bound h39]

/-- Settles O28: the payload is the packed stream, whose first bit is the reserved one and whose last byte
holds one bit. -/
theorem encPayloadShape : Obligations.EncPayloadShape := by
  unfold Obligations.EncPayloadShape
  intro s _ hpos
  have hrecs : 0 < s.irecSeq.length := by rwa [irecSeq_length]
  have hlen := encodeDeck_length s.params hrecs
  have hob := obSeq_putOb s (l := encodeDeck s.params s.irecSeq) (by omega)
  refine ⟨_, exec_enc s, ?_, ?_⟩
  · simp [Buf.ofList, hlen]
  rw [hob, encodeDeck_getD _ hrecs (by decide), encodeDeck_getD _ hrecs (by decide),
    bytesToBits_encodeDeck _ hrecs]
  exact ⟨packByte_ge_of_first rfl, packByte_of_one_left (deckStream_length _ _).le,
    fun k off hk hoff => deckStream_field_le _ _ hk hoff⟩

end Sys2Proof.Proofs
end

section
/-! SUPPORT. The formation field packer, both ways: where `ENC` files a record, and the round trip of a deck
(42_formation_field_packer.md R126, R133). -/

namespace Sys2Proof.Proofs

open Sys2Proof.Machine Sys2Proof.Safety

/-! ### The positional map (R126) -/

/-- A slot no record is filed under holds the virtual slot. -/
theorem positional_absent (pol : DupPolicy) {recs : List InRec} {k : Nat} (h : ∀ r ∈ recs, r.slot.toInt ≠ k) :
    positional pol recs k = virtualSlot := by
  rw [positional, file_none pol k none h, Option.getD_none]

/-- With unique keys a record is found under its key, whatever the policy. -/
theorem positional_of_uniqueKeys (pol : DupPolicy) {recs : List InRec} {r : InRec} {k : Nat}
    (hu : uniqueKeys recs) (hr : r ∈ recs) (hk : r.slot.toInt = k) (h1 : 1 ≤ k) (h12 : k ≤ 12) :
    positional pol recs k = r := by
  obtain ⟨pre, post, rfl⟩ := List.append_of_mem hr
  obtain ⟨-, htail, hcross⟩ := List.pairwise_append.mp hu
  have hpost : ∀ q ∈ post, q.slot.toInt ≠ k := fun q hq e =>
    (List.pairwise_cons.mp htail).1 q hq (by omega) (by omega) (BitVec.eq_of_toInt_eq (hk.trans e.symm))
  have hpre : ∀ q ∈ pre, q.slot.toInt ≠ k := fun q hq e =>
    hcross q hq r (by simp) (by omega) (by omega) (BitVec.eq_of_toInt_eq (e.trans hk.symm))
  have hfile : fileRecord pol k none r = some r := by
    cases pol <;> exact if_pos hk
  rw [positional, List.foldl_append, file_none pol k none hpre, List.foldl_cons, hfile,
    file_none pol k _ hpost, Option.getD_some]

/-! ### The deck round trip (R133) -/

/-- A record with some identifier: those a round trip keeps. -/
def hasIdentifier (r : InRec) : Prop := r.pid ≠ 0 ∨ ∃ e ∈ Five.toList r.ego, e ≠ 0

/-- A record with its enabled bit, as `DEC` gives it (R122). -/
def withEnabled (r : InRec) : OutRec where
  slot := r.slot
  pid := r.pid
  st := r.st
  ego := r.ego
  en := if 0 < r.st.toNat then 1 else 0

/-- An identifier a deck carries unchanged in slot `s`: 0, or the base `nb` with a modulus from 1 to 99. -/
def carriedId (s nb : Nat) (id : Word) : Prop :=
  id = 0 ∨ (nb + 100 * s + 1 ≤ id.toNat ∧ id.toNat ≤ nb + 100 * s + 99)

/-- What `ENC` writes into the group of a record (R125), as fields. -/
def slotFields (p : Params) (r : InRec) : SlotFields :=
  ⟨modulus r.pid, (low4 p r.st).toNat, Five.map modulus r.ego⟩

/-- What `DEC` makes of the group of slot `k + 1` of a stream `ENC` wrote. -/
theorem emit_deckStream (p : Params) (recs : List InRec) {k : Nat} (hk : k < 12) :
    emit (deckStream p recs) (k + 1) (1 + 46 * k) =
      let f := slotFields p (positional p.dupPolicy recs (k + 1))
      if emitted f then some (slotRecord (k + 1) (expandSlot (k + 1) f false)) else none := by
  rw [emit, readSlot_deckStream p recs hk]
  rfl

theorem emitted_virtualSlot (p : Params) : emitted (slotFields p virtualSlot) = false := rfl

/-- A slot is emitted exactly when one of the record's moduli is not 0. -/
theorem emitted_slotFields_iff (p : Params) (r : InRec) :
    emitted (slotFields p r) = true ↔ modulus r.pid ≠ 0 ∨ ∃ e ∈ Five.toList r.ego, modulus e ≠ 0 := by
  simp [emitted, slotFields, Five.map, Five.toList, Nat.pos_iff_ne_zero]

/-- The modulus of a carried identifier is what it has beyond base and slot. -/
theorem modulus_of_carried {s nb : Nat} {id : Word} (hs : s ≤ 12) (hnb : nb ∈ [10000, 20000])
    (hlo : nb + 100 * s + 1 ≤ id.toNat) (hhi : id.toNat ≤ nb + 100 * s + 99) :
    modulus id + nb + 100 * s = id.toNat := by
  have hbase : nb = 10000 ∨ nb = 20000 := List.mem_pair.mp hnb
  have hint : id.toInt = id.toNat := BitVec.toInt_eq_toNat_of_lt (by omega)
  rw [modulus, if_pos (by omega)]
  omega

section
variable {s nb : Nat} {id : Word} (hs : s ≤ 12) (hnb : nb ∈ [10000, 20000]) (h : carriedId s nb id)
include hs hnb h

theorem modulus_eq_zero_iff_of_carriedId : modulus id = 0 ↔ id = 0 := by
  rcases h with rfl | ⟨hlo, hhi⟩
  · exact ⟨fun _ => rfl, fun _ => rfl⟩
  · have hm := modulus_of_carried hs hnb hlo hhi
    refine ⟨fun h0 => by omega, fun h0 => ?_⟩
    rw [h0]
    rfl

theorem expand_modulus_of_carriedId : BitVec.ofNat 32 (expand s (modulus id) nb) = id := by
  rcases h with rfl | ⟨hlo, hhi⟩
  · rfl
  · have hm := modulus_of_carried hs hnb hlo hhi
    rw [expand_pos nb (by omega), hm, BitVec.ofNat_toNat, BitVec.setWidth_eq]

end

section
variable {r : InRec} (hr : carried r)
include hr

theorem carried_emitted_iff (p : Params) : emitted (slotFields p r) = true ↔ hasIdentifier r := by
  obtain ⟨-, hs, -, hpid, hego⟩ := hr
  have hp := modulus_eq_zero_iff_of_carriedId hs (by simp) hpid
  have he (e : Word) (hmem : e ∈ Five.toList r.ego) :=
    modulus_eq_zero_iff_of_carriedId hs (by simp) (hego e hmem)
  rw [emitted_slotFields_iff]
  exact or_congr hp.not (exists_congr fun e => and_congr_right fun hmem => (he e hmem).not)

/-- A carried record comes back as it was, with its enabled bit. -/
theorem slotRecord_of_carried (p : Params) :
    slotRecord r.slot.toNat (expandSlot r.slot.toNat (slotFields p r) false) = withEnabled r := by
  obtain ⟨-, hs, hst, hpid, hego⟩ := hr
  have hp := expand_modulus_of_carriedId hs (by simp) hpid
  have he (e : Word) (hmem : e ∈ Five.toList r.ego) :=
    expand_modulus_of_carriedId hs (by simp) (hego e hmem)
  obtain ⟨slot, pid, st, e0, e1, e2, e3, e4⟩ := r
  simp only [Five.toList, List.forall_mem_cons] at he
  obtain ⟨h0, h1, h2, h3, h4, -⟩ := he
  simp only [slotRecord, expandSlot, slotFields, Five.map, withEnabled, low4_small p hst, hp, h0, h1, h2, h3, h4,
    BitVec.ofNat_toNat, BitVec.setWidth_eq]

theorem carried_slot_toInt : r.slot.toInt = r.slot.toNat := by
  obtain ⟨-, hs, -⟩ := hr
  exact BitVec.toInt_eq_toNat_of_lt (by omega)

/-- The group of a carried record that `ENC` filed under its key. -/
theorem emit_of_carried (p : Params) {recs : List InRec} {k : Nat} (hk : k < 12) (hkey : r.slot.toNat = k + 1)
    (hpos : positional p.dupPolicy recs (k + 1) = r) (o : OutRec) :
    emit (deckStream p recs) (k + 1) (1 + 46 * k) = some o ↔ hasIdentifier r ∧ o = withEnabled r := by
  rw [emit_deckStream p recs hk, hpos, ← hkey]
  simp only [carried_emitted_iff hr p, slotRecord_of_carried hr p, Option.ite_none_right_eq_some,
    Option.some.injEq, eq_comm (a := o)]

end

/-- The records of a deck `ENC` wrote: those of the list that have an identifier. -/
theorem mem_deckRecords_deckStream (p : Params) {recs : List InRec} (hu : uniqueKeys recs)
    (hc : ∀ r ∈ recs, carried r) (o : OutRec) :
    o ∈ deckRecords (deckStream p recs) ↔ ∃ r ∈ recs, hasIdentifier r ∧ o = withEnabled r := by
  have filed (r : InRec) (hr : r ∈ recs) (k : Nat) (hk : k < 12) (hkey : r.slot.toNat = k + 1) :=
    emit_of_carried (hc r hr) p hk hkey (positional_of_uniqueKeys p.dupPolicy hu hr
      ((carried_slot_toInt (hc r hr)).trans (congrArg Nat.cast hkey)) (by omega) (by omega)) o
  simp only [deckRecords, List.mem_filterMap, List.mem_range]
  constructor
  · rintro ⟨k, hk, ho⟩
    by_cases hex : ∃ r ∈ recs, r.slot.toInt = (k + 1 : Nat)
    · obtain ⟨r, hr, hkey⟩ := hex
      rw [carried_slot_toInt (hc r hr)] at hkey
      exact ⟨r, hr, (filed r hr k hk (by omega)).mp ho⟩
    · have hnone := positional_absent p.dupPolicy fun r hr hkey => hex ⟨r, hr, hkey⟩
      simp [emit_deckStream p recs hk, hnone, emitted_virtualSlot] at ho
  · rintro ⟨r, hr, ho⟩
    obtain ⟨h1, h12, -⟩ := hc r hr
    exact ⟨r.slot.toNat - 1, by omega, (filed r hr _ (by omega) (by omega)).mpr ho⟩

/-- `ENC`, the copy and a decode leave the records of the stream `ENC` wrote. -/
theorem run_deck_round_trip {s : State} {i : Instr} (hs : launchOk s) (hpos : 0 < s.irec.len.toNat)
    (hi : i ∈ [.dec, .decV]) :
    run s [issue .enc, .copyObToIb, issue i] = .next
      (putOrec (afterCopy s (encodeDeck s.params s.irecSeq)) (deckRecords (deckStream s.params s.irecSeq)) false) := by
  obtain ⟨⟨⟨hcap, -⟩, -⟩, -⟩ := hs
  have hrecs : 0 < s.irecSeq.length := by rwa [irecSeq_length]
  have hlen := encodeDeck_length s.params hrecs
  have h32 : (encodeDeck s.params s.irecSeq).length < 2 ^ 32 := by omega
  have hdecode : ∀ j ∈ [Instr.dec, .decV], decode (encode j) = .command j := by decide
  refine run_copy_run (by decide) (hdecode i hi) h32 (by omega) (fun q => exec_enc _) ?_ rfl
  rw [exec_decode hi, afterCopy_ibSeq s h32, bytesToBits_encodeDeck _ hrecs]

/-- Settles O31: the run leaves the records of the stream, in slot order, and each comes back as it was. -/
theorem deckRoundTrip : Obligations.DeckRoundTrip := by
  unfold Obligations.DeckRoundTrip
  intro s i hs hpos hu hc hi
  refine ⟨_, run_deck_round_trip hs hpos hi, hadErr_of_status (putOrec_status ..), rfl, ?_⟩
  rw [orecSeq_putOrec_deckRecords]
  exact ⟨emit_ascending _, mem_deckRecords_deckStream s.params hu hc⟩

end Sys2Proof.Proofs
end

section
/-! SUPPORT. The decoder and the encoder as inverses of each other, and the ways a `CMD` write ends
(30_encoding.md R75 to R78; 60_exceptions.md R140 to R150). -/

namespace Sys2Proof.Proofs

open Sys2Proof.Machine Sys2Proof.Safety

/-! ### Decoding and encoding (30_encoding.md R76 to R78) -/

theorem decode_encode (i : Instr) : decode (encode i) = .command i := by
  cases i with
  | btob e => exact decode_encode_btob e
  | btoy | ienc | iencN | idec | dec | decV | enc | encR => decide

/-- A word whose low half is the opcode of `BTOB` is the word of `BTOB` with the word's `EXPECT`. -/
theorem eq_encode_btob {w : Word} (h : w.toNat % 65536 = 1) : w = encode (.btob (fieldExpect w)) := by
  apply BitVec.eq_of_toNat_eq
  rw [encode_btob_toNat, fieldExpect_toNat]
  omega

/-- Every legal word is the word of some command (30_encoding.md R78). -/
theorem exists_encode_of_legal {w : Word} (h : legal true w = true) : ∃ j, w = encode j := by
  rcases (legal_withIlm_iff w).mp h with hbtob | hlist
  · exact ⟨_, eq_encode_btob hbtob⟩
  · simp only [List.mem_cons, List.not_mem_nil, or_false] at hlist
    rcases hlist with hw | hw | hw | hw | hw | hw | hw | hw
    exacts [⟨.btoy, BitVec.eq_of_toNat_eq hw⟩, ⟨.ienc, BitVec.eq_of_toNat_eq hw⟩,
      ⟨.iencN, BitVec.eq_of_toNat_eq hw⟩, ⟨.idec, BitVec.eq_of_toNat_eq hw⟩,
      ⟨.dec, BitVec.eq_of_toNat_eq hw⟩, ⟨.decV, BitVec.eq_of_toNat_eq hw⟩,
      ⟨.enc, BitVec.eq_of_toNat_eq hw⟩, ⟨.encR, BitVec.eq_of_toNat_eq hw⟩]

theorem legal_of_decode {w : Word} {i : Instr} (h : decode w = .command i) : legal true w = true :=
  (legal_iff_decode true w).mpr ⟨i, h, by simp [Instr.wellFormed]⟩

/-- Settles O1: a word that decodes is some command's word, and that word decodes to one command only. -/
theorem decodeAcceptsExactlyEncodedWords : Obligations.DecodeAcceptsExactlyEncodedWords := by
  unfold Obligations.DecodeAcceptsExactlyEncodedWords
  intro w i
  constructor
  · intro h
    obtain ⟨j, rfl⟩ := exists_encode_of_legal (legal_of_decode h)
    rw [decode_encode, DecodeResult.command.injEq] at h
    rw [h]
  · rintro rfl
    exact decode_encode i

/-- Settles O3, word by word. -/
theorem wordsWrittenOutDecodeAsTheTableSays : Obligations.WordsWrittenOutDecodeAsTheTableSays := by
  unfold Obligations.WordsWrittenOutDecodeAsTheTableSays
  decide

/-- Settles O4: a step is the next action, and a `CMD` write runs its word. -/
theorem cmdWriteRunsTheDecodedCommand : Obligations.CmdWriteRunsTheDecodedCommand := by
  unfold Obligations.CmdWriteRunsTheDecodedCommand
  intro s w i rest hscript hd
  rw [step_cons hscript, act_writeCmd, runCommand_command hd]

/-! ### How a command ends (60_exceptions.md R140 to R150) -/

theorem takeFault_illegalCmd_outcome (s : State) :
    takeFault .illegalCmd s = outcome s Buf.empty Buf.empty Buf.empty Buf.empty 3 := by
  rw [takeFault_outcome, statusWord_illegalCmd]

/-- Settles O7: a command whose unit the block lacks takes the fault. -/
theorem marshallerCommandsAreIllegalWithoutTheUnit :
    Obligations.MarshallerCommandsAreIllegalWithoutTheUnit := by
  unfold Obligations.MarshallerCommandsAreIllegalWithoutTheUnit
  intro s i hilm hi
  have hneeds : ∀ j ∈ [Instr.ienc, .iencN, .idec, .encR], j.wellFormed false = false := by decide
  rw [exec_not_wellFormed (by rw [hilm]; exact hneeds i hi), takeFault_illegalCmd_outcome]

theorem hasIlm_of_wellFormed {h : Bool} {i : Instr} (hwf : i.wellFormed h = true)
    (hneeds : i.needsIlm = true) : h = true := by
  simpa [Instr.wellFormed, hneeds] using hwf

/-- A command the block has, `IENC.N` aside, completes (60_exceptions.md R141). -/
theorem exec_completes {i : Instr} {s : State} (hwf : i.wellFormed s.params.hasIlm = true)
    (hi : i ≠ .iencN) : ∃ t, exec i s = .next t ∧ t.status = statusWord .ok false := by
  have hilm := hasIlm_of_wellFormed hwf
  cases i with
  | btob e => exact ⟨_, exec_btob e s, putObit_status ..⟩
  | btoy => exact ⟨_, exec_btoy s, putOb_status ..⟩
  | ienc => exact ⟨_, exec_ienc_outcome (hilm rfl), statusWord_ok.symm⟩
  | iencN => exact absurd rfl hi
  | idec => exact ⟨_, exec_idec_outcome (hilm rfl), statusWord_ok.symm⟩
  | dec | decV => exact ⟨_, exec_decode (by simp) s, putOrec_status ..⟩
  | enc => exact ⟨_, exec_enc s, putOb_status ..⟩
  | encR => exact ⟨_, exec_encR s, by rw [needIlm_present _ (hilm rfl), putOb_status]⟩

/-- Settles O5: an illegal word faults, the word of `IENC.N` faults, any other legal word completes. -/
theorem commandEndsInOneOfThreeClasses : Obligations.CommandEndsInOneOfThreeClasses := by
  unfold Obligations.CommandEndsInOneOfThreeClasses
  intro s w
  cases hlegal : legal s.params.hasIlm w with
  | false =>
    exact ⟨_, runCommand_not_legal hlegal, fun _ => takeFault_illegalCmd_outcome s, nofun, nofun,
      hadErr_of_status (takeFault_status ..)⟩
  | true =>
    obtain ⟨i, hd, hwf⟩ := (legal_iff_decode _ w).mp hlegal
    obtain rfl := (decodeAcceptsExactlyEncodedWords w i).mp hd
    rw [runCommand_command hd]
    by_cases hi : i = .iencN
    · subst hi
      exact ⟨_, exec_iencN_outcome (hasIlm_of_wellFormed hwf rfl), nofun, fun _ _ => rfl,
        fun _ h => absurd (by decide) h, by rw [← statusWord_invalidInput]; exact hadErr_of_status rfl⟩
    · obtain ⟨t, ht, hstatus⟩ := exec_completes hwf hi
      have hw : encode i ≠ 0x00000043 := fun h =>
        hi (DecodeResult.command.inj (hd.symm.trans ((congrArg decode h).trans (by decide))))
      exact ⟨t, ht, nofun, fun _ h => absurd h hw, fun _ _ => code_of_status hstatus,
        hadErr_of_status hstatus⟩

/-- Settles O10: the first command leaves every input as it was, and the second depends on those alone. -/
theorem nextCommandErasesThePreviousOne : Obligations.NextCommandErasesThePreviousOne := by
  unfold Obligations.NextCommandErasesThePreviousOne
  intro s w₁ w₂
  obtain ⟨ob, obit, oint, orec, status, hfirst⟩ := runCommand_frame w₁ s
  have hsame : SameInputs (outcome s ob obit oint orec status) s := ⟨rfl, rfl, rfl, rfl, rfl⟩
  obtain ⟨_, _, _, _, _, hafter, halone⟩ := sameResult_runCommand hsame w₂
  exact ⟨_, hfirst, hafter.trans halone.symm⟩

end Sys2Proof.Proofs
end

section
/-! SUPPORT. The formation field packer: the ranges of what `DEC` emits, where its cursor ends, what `ENC` lays
out, and the deck of any records at all (42_formation_field_packer.md R112 to R134). -/

namespace Sys2Proof.Proofs

open Sys2Proof.Machine Sys2Proof.Safety

/-! ### The ranges of a decoded record (10_state.md R25) -/

/-- An identifier word as it stands in a record: 0, or in the range its base and a slot from 1 to 12 allow. -/
theorem zeroOrIn_expand {s m : Nat} (nb : Nat) (h1 : 1 ≤ s) (h12 : s ≤ 12) (hm : m < 128)
    (hnb : nb ≤ 20000) : zeroOrIn (nb + 101) (nb + 1327) (BitVec.ofNat 32 (expand s m nb)) := by
  rcases Nat.eq_zero_or_pos m with rfl | hpos
  · exact .inl rfl
  · right
    have hfits : m + nb + 100 * s < 2 ^ 32 := by omega
    rw [expand_pos nb hpos, BitVec.toNat_ofNat, Nat.mod_eq_of_lt hfits]
    omega

/-- A record made from fields of their widths, in a slot from 1 to 12. -/
theorem outRecOk_slotRecord {s : Nat} {f : SlotFields} (h1 : 1 ≤ s) (h12 : s ≤ 12) (hpm : f.pm < 128)
    (hst : f.st < 16) (hem : ∀ m ∈ Five.toList f.em, m < 128) (err : Bool) :
    outRecOk (slotRecord s (expandSlot s f err)) := by
  have hslot : (slotRecord s (expandSlot s f err)).slot.toNat = s := by
    simp only [slotRecord, BitVec.toNat_ofNat]
    omega
  have hstw : (slotRecord s (expandSlot s f err)).st.toNat = f.st := by
    simp only [slotRecord, expandSlot, BitVec.toNat_ofNat]
    omega
  have hego : Five.toList (slotRecord s (expandSlot s f err)).ego
      = (Five.toList f.em).map fun m => BitVec.ofNat 32 (expand s m 20000) := rfl
  rw [outRecOk, hslot, hstw, hego]
  refine ⟨h1, h12, zeroOrIn_expand 10000 h1 h12 hpm (by decide), fun e he => ?_, by omega, rfl⟩
  obtain ⟨m, hm, rfl⟩ := List.mem_map.mp he
  exact zeroOrIn_expand 20000 h1 h12 (hem m hm) (by decide)

theorem outRecOk_of_emit {b : List Bool} {s c : Nat} {r : OutRec} (h1 : 1 ≤ s) (h12 : s ≤ 12)
    (h : emit b s c = some r) : outRecOk r := by
  rw [emit_some h, readSlot_eq]
  refine outRecOk_slotRecord h1 h12 (readField_lt _ _ _) (readField_lt _ _ _) ?_ _
  simp only [Five.toList, List.forall_mem_cons]
  exact ⟨readField_lt _ _ _, readField_lt _ _ _, readField_lt _ _ _, readField_lt _ _ _,
    readField_lt _ _ _, nofun⟩

theorem outRecOk_of_mem_deckRecords {b : List Bool} {r : OutRec} (h : r ∈ deckRecords b) : outRecOk r := by
  obtain ⟨k, hk, hr⟩ := List.mem_filterMap.mp h
  exact outRecOk_of_emit (by omega) (List.mem_range.mp hk) hr

/-- Settles O25: `OREC` is made from the deck's records, each in range, their slots ascending. -/
theorem decodedRecordsAreInRange : Obligations.DecodedRecordsAreInRange := by
  unfold Obligations.DecodedRecordsAreInRange
  intro s i hi
  have hlen := deckRecords_length_le (bytesToBits s.ibSeq 553)
  refine ⟨_, exec_decode hi s, ?_, fun r hr => ?_, ?_⟩
  · rwa [putOrec_orec, Buf.ofList_len (by omega)]
  · exact outRecOk_of_mem_deckRecords (Memory.mem_ofListFrom hr)
  · exact Memory.pairwise_ofListFrom 0 (emit_ascending _)

/-- Settles O33: twelve slots of 46 bits from index 1 on, or none. -/
theorem cursorEndsAt553 : Obligations.CursorEndsAt553 := by
  unfold Obligations.CursorEndsAt553
  refine ⟨fun valid B hB => ?_, fun _ => rfl⟩
  rw [decodeDeck, if_neg (mt List.length_eq_zero_iff.mp hB),
    decodeSlots_eq _ _ _ _ _ _ (by decide) (by decide)]

/-! ### What `ENC` writes (R113, R125, R127) -/

/-- Settles O22: inside 0 to 15 the slot type itself, and without exceptions the low four bits of a
two's-complement pattern, which are its remainder modulo 16. -/
theorem slotTypeFieldOnEncode : Obligations.SlotTypeFieldOnEncode := by
  unfold Obligations.SlotTypeFieldOnEncode
  refine ⟨fun p st h => low4_small p h, fun p st hp => ?_⟩
  have hlow : low4 p st = st.extractLsb' 0 4 := by
    rw [low4, hp]
    exact ite_self _
  rw [hlow, BitVec.extractLsb'_toNat, Nat.shiftRight_zero, BitVec.toInt_eq_toNat_cond]
  split <;> omega

/-- Settles O27: the payload is the packed stream, whose first bit is the reserved one and whose slots read
back as the fields laid in. -/
theorem encLaysOutTwelveSlots : Obligations.EncLaysOutTwelveSlots := by
  unfold Obligations.EncLaysOutTwelveSlots
  refine ⟨by decide, fun s _ hpos => ?_⟩
  have hrecs : 0 < s.irecSeq.length := by rwa [irecSeq_length]
  have hlen := encodeDeck_length s.params hrecs
  refine ⟨Buf.ofList (encodeDeck s.params s.irecSeq), encodeDeck s.params s.irecSeq, ?_, ?_, hlen,
    fun i => Buf.read_ofList _ i, ?_, ?_, fun k hk => ?_⟩
  · rw [exec_enc, putOb_outcome]
  · rw [Buf.ofList_len (by omega), hlen]
  · rw [encodeDeck_getD _ hrecs (by decide)]
    exact packByte_ge_of_first rfl
  · rw [encodeDeck_getD _ hrecs (by decide)]
    have hlast : packByte (deckStream s.params s.irecSeq) 69 = 0x00 ∨
        packByte (deckStream s.params s.irecSeq) 69 = 0x80 := packByte_of_one_left (deckStream_length _ _).le
    rcases hlast with h | h <;> rw [h] <;> rfl
  · have hfields := readSlot_deckStream s.params s.irecSeq hk
    rw [readSlot_eq, ← bytesToBits_encodeDeck _ hrecs] at hfields
    simp only [SlotFields.mk.injEq, Five.mk.injEq] at hfields
    obtain ⟨h0, h7, h11, h18, h25, h32, h39⟩ := hfields
    exact ⟨h0, h7, h11, h18, h25, h32, h39⟩

/-! ### The positional map (R126) -/

/-- Under the policy `last` the record after which none has the key is found under it. -/
theorem positional_last {post : List InRec} {r : InRec} {k : Nat} (pre : List InRec) (hr : r.slot.toInt = k)
    (hpost : ∀ q ∈ post, q.slot.toInt ≠ k) : positional .last (pre ++ r :: post) k = r := by
  have hfile (held : Option InRec) : fileRecord .last k held r = some r := if_pos hr
  rw [positional, List.foldl_append, List.foldl_cons, hfile, file_none .last k _ hpost, Option.getD_some]

/-- Under the policy `first` the record before which none has the key is found under it. -/
theorem positional_first {pre : List InRec} {r : InRec} {k : Nat} (post : List InRec) (hr : r.slot.toInt = k)
    (hpre : ∀ q ∈ pre, q.slot.toInt ≠ k) : positional .first (pre ++ r :: post) k = r := by
  have hfile : fileRecord .first k none r = some r := if_pos hr
  rw [positional, List.foldl_append, file_none .first k _ hpre, List.foldl_cons, hfile, file_first,
    Option.getD_some]

/-- Whether keys in 1 to 12 repeat does not depend on the order of the list. -/
theorem uniqueKeys_of_perm {recs recs' : List InRec} (hp : recs.Perm recs') (hu : uniqueKeys recs) :
    uniqueKeys recs' :=
  (hp.pairwise_iff fun {a b} hab h1 h12 (e : b.slot = a.slot) => hab (e ▸ h1) (e ▸ h12) e.symm).mp hu

/-- With unique keys neither the order of the list nor the policy matters to a slot. -/
theorem positional_perm (pol pol' : DupPolicy) {recs recs' : List InRec} {k : Nat} (h1 : 1 ≤ k)
    (h12 : k ≤ 12) (hu : uniqueKeys recs) (hp : recs.Perm recs') :
    positional pol recs k = positional pol' recs' k := by
  by_cases hex : ∃ r ∈ recs, r.slot.toInt = k
  · obtain ⟨r, hr, hk⟩ := hex
    rw [positional_of_uniqueKeys pol hu hr hk h1 h12,
      positional_of_uniqueKeys pol' (uniqueKeys_of_perm hp hu) (hp.mem_iff.mp hr) hk h1 h12]
  · have habsent : ∀ r ∈ recs, r.slot.toInt ≠ k := fun r hr hk => hex ⟨r, hr, hk⟩
    rw [positional_absent pol habsent, positional_absent pol' fun r hr => habsent r (hp.mem_iff.mpr hr)]

/-- The stream is made from the twelve slots of the positional map, and of the parameters from `Low4` alone. -/
theorem deckStream_congr {p : Params} {pol : DupPolicy} {recs recs' : List InRec}
    (h : ∀ k < 12, positional pol recs (k + 1) = positional p.dupPolicy recs' (k + 1)) :
    deckStream { p with dupPolicy := pol } recs = deckStream p recs' := by
  have hgroup (r : InRec) : slotGroup { p with dupPolicy := pol } r = slotGroup p r := rfl
  refine congrArg (true :: ·) (List.flatMap_congr fun k hk => ?_)
  rw [hgroup, h k (List.mem_range.mp hk)]

/-- Settles O29, from the absent slot, the two policies, and the slots of a reordered list. -/
theorem positionalMapBySlotKey : Obligations.PositionalMapBySlotKey := by
  unfold Obligations.PositionalMapBySlotKey
  refine ⟨fun pol _ _ h => positional_absent pol h, fun pre _ _ _ => positional_last pre,
    fun _ post _ _ => positional_first post,
    fun pol pol' _ _ _ h1 h12 => positional_perm pol pol' h1 h12, fun p pol recs recs' hu hp => ?_⟩
  have hstream := deckStream_congr (p := p) fun k hk =>
    positional_perm pol p.dupPolicy (Nat.le_add_left 1 k) hk hu hp
  rw [encodeDeck, encodeDeck, hp.length_eq, hstream]

/-! ### The deck of any records (R134) -/

/-- What `DEC` makes of the group of a record, in words: the identifiers rebuilt from moduli and slot. -/
theorem slotRecord_slotFields (p : Params) (s : Nat) (r : InRec) (err : Bool) :
    slotRecord s (expandSlot s (slotFields p r) err) =
      let rebuilt := fun (nb : Nat) (id : Word) =>
        if modulus id = 0 then (0 : Word) else BitVec.ofNat 32 (modulus id + nb + 100 * s)
      { slot := BitVec.ofNat 32 s
        pid := rebuilt 10000 r.pid
        st := (low4 p r.st).setWidth 32
        ego := Five.map (rebuilt 20000) r.ego
        en := if low4 p r.st = 0 then 0 else 1 } := by
  have hst : (low4 p r.st).setWidth 32 = BitVec.ofNat 32 (low4 p r.st).toNat := by
    rw [BitVec.ofNat_toNat]
  have hen : (if 0 < (low4 p r.st).toNat then (1 : Word) else 0) = if low4 p r.st = 0 then 0 else 1 := by
    have hzero : low4 p r.st = 0 ↔ ¬ 0 < (low4 p r.st).toNat := by
      rw [bv_eq_iff, Nat.not_lt, Nat.le_zero]
      rfl
    rw [if_congr hzero rfl rfl, ite_not]
  simp only [slotRecord, expandSlot, slotFields, Five.map, ofNat_expand, hst]
  exact congrArg (OutRec.mk _ _ _ _) hen

/-- Settles O32: the run leaves the records of the stream, slot by slot. -/
theorem deckRoundTripOfAnyRecords : Obligations.DeckRoundTripOfAnyRecords := by
  unfold Obligations.DeckRoundTripOfAnyRecords
  intro s i hs hpos hi rebuilt
  refine ⟨_, run_deck_round_trip hs hpos hi, hadErr_of_status (putOrec_status ..), ?_⟩
  rw [orecSeq_putOrec_deckRecords]
  refine List.filterMap_congr fun k hk => ?_
  rw [emit_deckStream _ _ (List.mem_range.mp hk)]
  simp only [slotRecord_slotFields]
  generalize positional s.params.dupPolicy s.irecSeq (k + 1) = r
  have hdropped : (modulus r.pid = 0 ∧ ∀ e ∈ Five.toList r.ego, modulus e = 0)
      ↔ ¬ emitted (slotFields s.params r) = true := by
    rw [emitted_slotFields_iff]
    push Not
    rfl
  rw [if_congr hdropped rfl rfl, ite_not]

end Sys2Proof.Proofs
end

section
/-! SUPPORT. The host's accesses: what a read observes, what a write, a SET and a COPY leave, and which are
refused (10_state.md R27 to R32; 20_memory.md R50 to R59; 30_encoding.md R80). -/

namespace Sys2Proof.Proofs

open Sys2Proof.Machine Sys2Proof.Safety

variable {α : Type}

/-! ### Registers (10_state.md R28 to R32) -/

/-- The registers as they read, in number order. -/
def registerValues (s : State) : List Word :=
  [0, s.status &&& 7, if s.params.hasIlm then 1 else 0, s.ib.len, s.ibit.len,
    if s.params.hasIlm then s.iint.len else 0, s.irec.len, s.ob.len, s.obit.len, s.oint.len, s.orec.len]

theorem readRegister_eq (s : State) (n : Nat) : readRegister s n = (registerValues s)[n]? := by
  match n with
  | 0 | 1 | 2 | 3 | 4 | 5 | 6 | 7 | 8 | 9 | 10 => rfl
  | k + 11 => rfl

theorem readRegister_eq_getD (s : State) {n : Nat} (h : n ≤ 10) :
    readRegister s n = some ((registerValues s).getD n 0) := by
  have hlt : n < (registerValues s).length := Nat.lt_succ_of_le h
  rw [readRegister_eq, List.getElem?_eq_getElem hlt, List.getD_eq_getElem _ _ hlt]

theorem act_readReg {s : State} {n : Nat} {v : Word} (h : readRegister s n = some v) :
    act (.readReg n) s = .next { s with observed := .register n v :: s.observed } := by
  rw [act, hostReadReg, h]
  rfl

/-- Settles O34, from the registers in number order. -/
theorem hostReadsTheRegisters : Obligations.HostReadsTheRegisters := by
  unfold Obligations.HostReadsTheRegisters
  refine fun s n => ⟨fun hn => act_readReg (readRegister_eq_getD s hn), fun hn => ?_⟩
  rw [act, hostReadReg, readRegister_eq, List.getElem?_eq_none hn]

theorem writeRegister_above {n : Nat} (h : 10 < n) (s : State) (v : Word) :
    writeRegister s n v = .refused (.noSuchRegister n) := by
  match n with
  | k + 11 => exact if_neg (t := .next s) (Nat.not_le.mpr h)

/-- Settles O35, register by register. -/
theorem hostWritesTheRegisters : Obligations.HostWritesTheRegisters := by
  unfold Obligations.HostWritesTheRegisters
  refine fun s v => ⟨rfl, rfl, fun hilm => if_pos hilm, fun hilm => if_neg (by simp [hilm]), rfl,
    fun n hn => ?_, fun n hn => ?_⟩
  · simp only [List.mem_cons, List.not_mem_nil, or_false] at hn
    rcases hn with rfl | rfl | rfl | rfl | rfl | rfl <;> rfl
  · rw [act, hostWriteReg, if_neg (by omega), writeRegister_above hn]

/-! ### Reads of elements and buffers (10_state.md R27; 20_memory.md R57) -/

theorem iintLen_present {s : State} (h : s.params.hasIlm = true) : s.iintLen = s.iint.len := by
  rw [State.iintLen, if_pos h]

theorem iintLen_absent {s : State} (h : s.params.hasIlm = false) : s.iintLen = 0 := by
  rw [State.iintLen, h]
  rfl

/-- `IINT` has as many elements as `IINTLEN` reads, on every block (10_state.md R32). -/
theorem iintSeq_length_eq_iintLen (s : State) : s.iintSeq.length = s.iintLen.toNat := by
  cases h : s.params.hasIlm with
  | true => rw [iintSeq_length h, iintLen_present h]
  | false => simp [iintLen_absent h, State.iintSeq, h]

theorem act_readElem_below {s : State} {b : Space} {i : Nat} (h : i < s.lenOf b) :
    act (.readElem b i) s = .next { s with observed := s.look b i 1 :: s.observed } := by
  rw [act, hostReadElem, if_pos h]
  rfl

theorem act_readElem_beyond {s : State} {b : Space} {i : Nat} (h : s.lenOf b ≤ i) :
    act (.readElem b i) s = .refused (.elementWithoutValue b i) := by
  rw [act, hostReadElem, if_neg (Nat.not_lt.mpr h)]

section
variable {s : State} {b : Space} {l : List α} (obs : List α → Observation) (hlen : l.length = s.lenOf b)
include hlen

/-- A read below the length of a buffer whose sequence is `l` observes the element of `l` at the index. -/
theorem readElem_observes {i : Nat} (hlook : s.look b i 1 = obs ((l.drop i).take 1)) (h : i < s.lenOf b) :
    ∃ v, l[i]? = some v ∧
      act (.readElem b i) s = .next { s with observed := obs [v] :: s.observed } := by
  obtain ⟨v, hv, hone⟩ := seq_look_one l (hlen ▸ h)
  exact ⟨v, hv, by rw [act_readElem_below h, hlook, hone]⟩

/-- A read of a whole buffer whose sequence is `l` observes `l`. -/
theorem readBuf_observes (hlook : s.look b 0 (s.lenOf b) = obs ((l.drop 0).take (s.lenOf b))) :
    act (.readBuf b) s = .next { s with observed := obs l :: s.observed } := by
  rw [act, hostReadBuf, hlook, List.drop_zero, ← hlen, List.take_length]
  rfl

end

/-- Settles O36, buffer by buffer. -/
theorem elementBeyondLengthHasNoValue : Obligations.ElementBeyondLengthHasNoValue := by
  unfold Obligations.ElementBeyondLengthHasNoValue
  refine ⟨fun _ _ _ h => act_readElem_beyond h,
    fun s i h => readElem_observes (.bytes .ib i) (ibSeq_length s) rfl h,
    fun s i h => readElem_observes (.bits .ibit i) (ibitSeq_length s) rfl h,
    fun s i hilm h => readElem_observes (.ints .iint i) (iintSeq_length_eq_iintLen s) rfl
      (h.trans_eq (congrArg BitVec.toNat (iintLen_present hilm).symm)),
    fun s i h => readElem_observes (.inRecs i) (irecSeq_length s) rfl h,
    fun s i h => readElem_observes (.bytes .ob i) (obSeq_length s) rfl h,
    fun s i h => readElem_observes (.bits .obit i) (obitSeq_length s) rfl h,
    fun s i h => readElem_observes (.ints .oint i) (ointSeq_length s) rfl h,
    fun s i h => readElem_observes (.outRecs i) (orecSeq_length s) rfl h,
    fun s i hilm => act_readElem_beyond ?_, fun p b i => act_readElem_beyond ?_⟩
  · rw [State.lenOf, iintLen_absent hilm]
    exact Nat.zero_le i
  · have hzero : (State.resetOf p).lenOf b = 0 := by
      cases b with
      | iint => rw [State.lenOf, resetOf_iintLen]; rfl
      | ib | ibit | irec | ob | obit | oint | orec => rfl
    rw [hzero]
    exact Nat.zero_le i

/-- Settles O47, buffer by buffer. -/
theorem hostBufferReadsReturnTheSequence : Obligations.HostBufferReadsReturnTheSequence := by
  unfold Obligations.HostBufferReadsReturnTheSequence
  refine ⟨fun s => ⟨readBuf_observes (.bytes .ib 0) (ibSeq_length s) rfl,
    readBuf_observes (.bits .ibit 0) (ibitSeq_length s) rfl,
    readBuf_observes (.ints .iint 0) (iintSeq_length_eq_iintLen s) rfl,
    readBuf_observes (.inRecs 0) (irecSeq_length s) rfl,
    readBuf_observes (.bytes .ob 0) (obSeq_length s) rfl,
    readBuf_observes (.bits .obit 0) (obitSeq_length s) rfl,
    readBuf_observes (.ints .oint 0) (ointSeq_length s) rfl,
    readBuf_observes (.outRecs 0) (orecSeq_length s) rfl⟩,
    fun s => ⟨ibSeq_length s, ibitSeq_length s, ?_, irecSeq_length s, obSeq_length s, obitSeq_length s,
      ointSeq_length s, orecSeq_length s⟩⟩
  rw [iintSeq_length_eq_iintLen, State.iintLen, apply_ite BitVec.toNat]
  rfl

/-- A read that answers adds one observation, and the same one whatever the host observed before. -/
theorem read_answers {s t : State} {a : HostAction}
    (ha : (∃ n, a = .readReg n) ∨ (∃ b i, a = .readElem b i) ∨ (∃ b, a = .readBuf b))
    (h : act a s = .next t) :
    ∃ o, ∀ before, act a { s with observed := before } = .next { s with observed := o :: before } := by
  rcases ha with ⟨n, rfl⟩ | ⟨b, i, rfl⟩ | ⟨b, rfl⟩
  · cases hv : readRegister s n with
    | none =>
      rw [act, hostReadReg, hv] at h
      cases h
    | some v => exact ⟨_, fun before => act_readReg (s := { s with observed := before }) hv⟩
  · rcases Nat.lt_or_ge i (s.lenOf b) with hi | hi
    · exact ⟨s.look b i 1, fun before => act_readElem_below (s := { s with observed := before }) hi⟩
    · rw [act_readElem_beyond hi] at h
      cases h
  · exact ⟨s.look b 0 (s.lenOf b), fun _ => rfl⟩

/-- Settles O39: the second read is the first with one more observation before it. -/
theorem hostReadsHaveNoSideEffect : Obligations.HostReadsHaveNoSideEffect := by
  unfold Obligations.HostReadsHaveNoSideEffect
  intro s t a ha h
  obtain ⟨o, hread⟩ := read_answers ha h
  obtain rfl : _ = t := Host.Outcome.next.inj ((hread s.observed).symm.trans h)
  exact ⟨o, rfl, hread (o :: s.observed)⟩

end Sys2Proof.Proofs
end

section
/-! SUPPORT. What the host leaves in the input buffers, by element, SET and COPY, and what a reset leaves
(10_state.md R32; 20_memory.md R59; 30_encoding.md R80; 70_reset_and_hazards.md R160 to R167). -/

namespace Sys2Proof.Proofs

open Sys2Proof.Machine Sys2Proof.Safety

variable {α : Type}

/-! ### Element writes (20_memory.md R50, R59) -/

/-- The index written reads as the value, every other index as before. -/
theorem read_after_write (m : Memory α) (i : Nat) (v : α) :
    Memory.read (Memory.write m i v) i = some v ∧
      ∀ k, k ≠ i → Memory.read (Memory.write m i v) k = Memory.read m k :=
  ⟨Memory.read_write_same m i v, fun _ h => Memory.read_write_other m v h⟩

theorem iintSeq_present {s : State} (h : s.params.hasIlm = true) :
    s.iintSeq = s.iint.seq (s.freeWord .iint · 0) := by
  rw [State.iintSeq, if_pos h]

/-- The integers of a block whose `IINT` was replaced. -/
theorem iintSeq_update {s : State} (h : s.params.hasIlm = true) (b : Buf Word) :
    ({ s with iint := b } : State).iintSeq = b.seq (s.freeWord .iint · 0) :=
  iintSeq_present (s := { s with iint := b }) h

theorem act_writeIint {s : State} (h : s.params.hasIlm = true) (i : Nat) (v : Word) :
    act (.writeIint i v) s =
      if i < s.params.iintCap then .next { s with iint := ⟨s.iint.len, Memory.write s.iint.mem i v⟩ }
      else .fault (.noSuchElement .iint i) := by
  rw [act, hostWriteIint, if_pos h]

/-- Settles O38, buffer by buffer. -/
theorem hostElementWriteIsWhatIsRead : Obligations.HostElementWriteIsWhatIsRead := by
  unfold Obligations.HostElementWriteIsWhatIsRead
  refine ⟨fun s i v => ⟨fun h => ⟨_, if_pos h, read_after_write _ i v⟩, fun h => if_neg (Nat.not_lt.mpr h)⟩,
    fun s i v => ⟨fun h => ⟨_, if_pos h, read_after_write _ i v⟩, fun h => if_neg (Nat.not_lt.mpr h)⟩,
    fun s i v hilm => ?_, fun s i v hilm => if_neg (by simp [hilm]),
    fun s i v => ⟨fun h => ⟨_, if_pos h, read_after_write _ i v⟩, fun h => if_neg (Nat.not_lt.mpr h)⟩⟩
  rw [act_writeIint hilm]
  exact ⟨fun h => ⟨_, if_pos h, read_after_write _ i v⟩, fun h => if_neg (Nat.not_lt.mpr h)⟩

/-- A write of `v` at `i` that leaves `u`, then the read of that element: the host observes `v`. The buffer's
sequence is `l` before the write and `l'` after it. -/
theorem run_write_read {s u : State} {a : HostAction} {b : Space} {i : Nat} {v : α} {l l' : List α}
    (obs : List α → Observation) (hwrite : act a { s with script := [.readElem b i] } = .next u)
    (hscript : u.script = [.readElem b i]) (hlook : u.look b i 1 = obs ((l'.drop i).take 1))
    (hset : l' = l.set i v) (hi : i < l.length) (hlen : i < u.lenOf b) :
    run s [a, .readElem b i] = .next { u with script := [], observed := obs [v] :: u.observed } := by
  have hone : (l'.drop i).take 1 = [v] := by
    obtain ⟨w, hw, hdrop⟩ := seq_look_one l' (i := i) (by rwa [hset, List.length_set])
    rw [hset, List.getElem?_set_self hi, Option.some.injEq] at hw
    rw [hdrop, hw]
  have hread := act_readElem_below (s := { u with script := [] }) (b := b) (i := i) hlen
  have hsame : ({ u with script := [] } : State).look b i 1 = u.look b i 1 := rfl
  rw [hsame, hlook, hone] at hread
  rw [run_next hwrite hscript, run_next hread rfl, run_nil]

/-- Settles O49, buffer by buffer. -/
theorem hostReadReturnsTheLatestWrite : Obligations.HostReadReturnsTheLatestWrite := by
  unfold Obligations.HostReadReturnsTheLatestWrite
  refine ⟨fun s i v hcap hi => ?_, fun s i v hcap hi => ?_, fun s i v hilm hcap hi => ?_,
    fun s i v hcap hi => ?_⟩
  · have hset := Buf.seq_write s.ib (Config.unwrittenByte .ib s.resets) i v
    exact ⟨_, run_write_read (.bytes .ib i) (if_pos hcap) rfl rfl hset
      (hi.trans_eq (ibSeq_length s).symm) hi, rfl, hset⟩
  · have hset := Buf.seq_write s.ibit (Config.unwrittenBit .ibit s.resets) i v
    exact ⟨_, run_write_read (.bits .ibit i) (if_pos hcap) rfl rfl hset
      (hi.trans_eq (ibitSeq_length s).symm) hi, rfl, hset⟩
  · have hset : ({ s with iint := ⟨s.iint.len, Memory.write s.iint.mem i v⟩ } : State).iintSeq
        = s.iintSeq.set i v := by
      rw [iintSeq_update hilm, iintSeq_present hilm]
      exact Buf.seq_write s.iint (s.freeWord .iint · 0) i v
    have hwrite := act_writeIint (s := { s with script := [.readElem .iint i] }) hilm i v
    exact ⟨_, run_write_read (.ints .iint i) (hwrite.trans (if_pos hcap)) rfl rfl hset
      (hi.trans_eq (iintSeq_length hilm).symm)
      (hi.trans_eq (congrArg BitVec.toNat (iintLen_present hilm).symm)), rfl, hset⟩
  · have hset := Buf.seq_write s.irec s.freeInRec i v
    exact ⟨_, run_write_read (.inRecs i) (if_pos hcap) rfl rfl hset
      (hi.trans_eq (irecSeq_length s).symm) hi, rfl, hset⟩

/-! ### SET and COPY (30_encoding.md R80) -/

/-- Every input capacity fits the 32-bit length registers (00_scope.md R7). -/
theorem inputCaps_fit {s : State} (h : launchOk s) :
    s.params.ibCap < 2 ^ 32 ∧ s.params.ibitCap < 2 ^ 32 ∧ s.params.iintCap < 2 ^ 32 ∧
      s.params.irecCap < 2 ^ 32 := by
  obtain ⟨⟨⟨-, hib⟩, ⟨-, hibit⟩, -, -, ⟨-, -, hiint, hirec, hob⟩, -⟩, -⟩ := h
  omega

/-- A sequence that was set is what the buffer holds, and its count is the length. -/
theorem set_holds (b : Buf α) (free : Nat → α) {l : List α} {cap : Nat} (hcap : cap < 2 ^ 32)
    (h : l.length ≤ cap) : (b.set l).len.toNat = l.length ∧ (b.set l).seq free = l :=
  ⟨Buf.set_len (by omega), Buf.seq_set (by omega) free⟩

theorem act_setIint {s : State} (h : s.params.hasIlm = true) (l : List Word) :
    act (.setIint l) s =
      if l.length ≤ s.params.iintCap then .next { s with iint := s.iint.set l }
      else .refused (.lengthAboveCapacity .iint) := by
  rw [act, hostSetIint, if_pos h]

theorem act_setIint_absent {s : State} (h : s.params.hasIlm = false) (l : List Word) :
    act (.setIint l) s = if l.length = 0 then .next s else .refused (.absentBuffer .iint) := by
  rw [act, hostSetIint, if_neg (by simp [h])]

/-- Settles O48, action by action. -/
theorem hostSetAboveCapacityIsRefused : Obligations.HostSetAboveCapacityIsRefused := by
  unfold Obligations.HostSetAboveCapacityIsRefused
  refine ⟨fun s l h => if_neg (Nat.not_le.mpr h), fun s l h => if_neg (Nat.not_le.mpr h),
    fun s l hilm h => ?_, fun s l h => if_neg (Nat.not_le.mpr h), fun s h => if_neg ?_,
    fun s h => if_neg ?_, fun s hilm => ?_, fun s l hilm h => ?_⟩
  · rw [act_setIint hilm, if_neg (Nat.not_le.mpr h)]
  · rwa [obSeq_length, Nat.not_le]
  · rwa [List.length_map, orecSeq_length, Nat.not_le]
  · rw [act_setIint_absent hilm]
    rfl
  · rw [act_setIint_absent hilm, if_neg (mt List.length_eq_zero_iff.mp h)]

/-- Settles O37, buffer by buffer. -/
theorem hostSetAndCopyPlaceTheSequence : Obligations.HostSetAndCopyPlaceTheSequence := by
  unfold Obligations.HostSetAndCopyPlaceTheSequence
  refine ⟨fun s l hs h => ?_, fun s l hs h => ?_, fun s l hs hilm h => ?_, fun s l hs h => ?_,
    fun s hs h => ?_, fun s hs h => ?_, fun s => readBuf_observes (.bytes .ob 0) (obSeq_length s) rfl⟩
  · obtain ⟨hcap, -⟩ := inputCaps_fit hs
    exact ⟨_, if_pos h, set_holds s.ib _ hcap h⟩
  · obtain ⟨-, hcap, -⟩ := inputCaps_fit hs
    exact ⟨_, if_pos h, set_holds s.ibit _ hcap h⟩
  · obtain ⟨-, -, hcap, -⟩ := inputCaps_fit hs
    refine ⟨_, (act_setIint hilm l).trans (if_pos h), ?_⟩
    rw [iintSeq_update hilm]
    exact set_holds s.iint _ hcap h
  · obtain ⟨-, -, -, hcap⟩ := inputCaps_fit hs
    exact ⟨_, if_pos h, set_holds s.irec _ hcap h⟩
  · obtain ⟨hcap, -⟩ := inputCaps_fit hs
    rw [← obSeq_length] at h ⊢
    exact ⟨_, if_pos h, set_holds s.ib _ hcap h⟩
  · obtain ⟨-, -, -, hcap⟩ := inputCaps_fit hs
    have hlen : (s.orecSeq.map OutRec.toInRec).length = s.orec.len.toNat := by
      rw [List.length_map, orecSeq_length]
    rw [← hlen] at h ⊢
    exact ⟨_, if_pos h, set_holds s.irec _ hcap h⟩

/-! ### Reset and the end of a run (70_reset_and_hazards.md R160 to R167) -/

/-- Settles O41. -/
theorem hostResetGivesResetState : Obligations.HostResetGivesResetState := by
  unfold Obligations.HostResetGivesResetState
  exact fun _ => rfl

/-- Settles O43. -/
theorem quiescentWhenTheHostStops : Obligations.QuiescentWhenTheHostStops := by
  unfold Obligations.QuiescentWhenTheHostStops
  intro s h
  rw [step, stepScript, h]

theorem exec_resetOf {p : Params} {i : Instr} (hwf : i.wellFormed p.hasIlm = true) (hi : i ≠ .iencN) :
    exec i (State.resetOf p) = .next { State.resetOf p with status := 1 } := by
  have hilm := hasIlm_of_wellFormed hwf
  have hib : (State.resetOf p).ibSeq = [] := Buf.seq_of_len_zero rfl _
  have hibit : (State.resetOf p).ibitSeq = [] := Buf.seq_of_len_zero rfl _
  obtain ⟨hdec, henc, hencR⟩ := emptyInputsGiveEmptyOutputs
  cases i with
  | btob e =>
    have hnone : bytesToBits [] e.toNat = [] :=
      List.eq_nil_of_length_eq_zero (Nat.le_zero.mp ((bytesToBits_length [] _).trans_le (bitCount_le 0 _)))
    rw [exec_btob, hib, hnone]
    rfl
  | btoy =>
    rw [exec_btoy, hibit]
    rfl
  | ienc =>
    have hiint : (State.resetOf p).iintSeq = [] :=
      (iintSeq_present (hilm rfl)).trans (Buf.seq_of_len_zero rfl _)
    rw [exec_ienc_outcome (hilm rfl), hiint]
    rfl
  | iencN => exact absurd rfl hi
  | idec =>
    rw [exec_idec_outcome (hilm rfl), hib]
    rfl
  | dec | decV => exact hdec _ _ rfl (by simp)
  | enc => exact henc _ rfl
  | encR => exact hencR _ rfl (hilm rfl)

/-- Settles O42: with every input empty a command that completes leaves no output. -/
theorem commandsStraightAfterResetGiveNothing : Obligations.CommandsStraightAfterResetGiveNothing := by
  unfold Obligations.CommandsStraightAfterResetGiveNothing
  intro p i hwf hi
  have hissue : act (issue i) (State.resetOf p) = .next { State.resetOf p with status := 1 } :=
    (act_issue (decode_encode i) _).trans (exec_resetOf hwf hi)
  exact run_next (s := State.resetOf p) (l := []) hissue rfl

end Sys2Proof.Proofs
end

section
/-! SUPPORT. What a step can do, said once, and the facts every step keeps: the parameters and the invariant
(00_scope.md R7; 10_state.md R21 to R33; 70_reset_and_hazards.md R167). -/

namespace Sys2Proof.Proofs

open Sys2Proof.Machine Sys2Proof.Safety

/-! ### What a host action can do -/

/-- What the host can leave of an input buffer of capacity `cap`: a new length, one element written, or a
sequence set, all within the capacity (10_state.md R32; 20_memory.md R50; 30_encoding.md R80). -/
inductive InputWrite {α : Type} (cap : Nat) (b : Buf α) : Buf α → Prop
  | length (v : Word) (h : v.toNat ≤ cap) : InputWrite cap b ⟨v, b.mem⟩
  | element (i : Nat) (v : α) (h : i < cap) : InputWrite cap b ⟨b.len, Memory.write b.mem i v⟩
  | sequence (l : List α) (h : l.length ≤ cap) : InputWrite cap b (b.set l)

/-- What a host action that answers a next state can leave of `s`. -/
inductive HostEffect (s : State) : State → Prop
  | command (w : Word) (t : State) (h : runCommand w s = .next t) : HostEffect s t
  | unchanged : HostEffect s s
  | observed (o : Observation) : HostEffect s { s with observed := o :: s.observed }
  | ib (b : Buf Byte) (h : InputWrite s.params.ibCap s.ib b) : HostEffect s { s with ib := b }
  | ibit (b : Buf Bool) (h : InputWrite s.params.ibitCap s.ibit b) : HostEffect s { s with ibit := b }
  | iint (b : Buf Word) (hilm : s.params.hasIlm = true) (h : InputWrite s.params.iintCap s.iint b) :
      HostEffect s { s with iint := b }
  | irec (b : Buf InRec) (h : InputWrite s.params.irecCap s.irec b) : HostEffect s { s with irec := b }
  | reset : HostEffect s (hostReset s)

section
variable {s t : State}

theorem hostEffect_writeReg {n : Nat} {v : Word} (h : hostWriteReg n v s = .next t) : HostEffect s t := by
  unfold hostWriteReg at h
  split at h
  · exact .command v t h
  · unfold writeRegister at h
    split at h
    · split at h <;> cases h
      exact .ib _ (.length v ‹_›)
    · split at h <;> cases h
      exact .ibit _ (.length v ‹_›)
    · split_ifs at h with hilm hv <;> cases h
      · exact .iint _ hilm (.length v hv)
      · exact .unchanged
    · split at h <;> cases h
      exact .irec _ (.length v ‹_›)
    · split at h <;> cases h
      exact .unchanged

theorem hostEffect_readReg {n : Nat} (h : hostReadReg n s = .next t) : HostEffect s t := by
  unfold hostReadReg at h
  split at h <;> cases h
  exact .observed _

theorem hostEffect_readElem {b : Space} {i : Nat} (h : hostReadElem b i s = .next t) : HostEffect s t := by
  unfold hostReadElem at h
  split at h <;> cases h
  exact .observed _

theorem hostEffect_setIb {l : List Byte} (h : hostSetIb l s = .next t) : HostEffect s t := by
  unfold hostSetIb at h
  split at h <;> cases h
  exact .ib _ (.sequence l ‹_›)

theorem hostEffect_setIrec {l : List InRec} (h : hostSetIrec l s = .next t) : HostEffect s t := by
  unfold hostSetIrec at h
  split at h <;> cases h
  exact .irec _ (.sequence l ‹_›)

/-- Every action that answers a next state has one of the effects. -/
theorem hostEffect_of_act {a : HostAction} (h : act a s = .next t) : HostEffect s t := by
  cases a with
  | writeReg n v => exact hostEffect_writeReg h
  | readReg n => exact hostEffect_readReg h
  | writeIb i v =>
    simp only [act, hostWriteIb] at h
    split at h <;> cases h
    exact .ib _ (.element i v ‹_›)
  | writeIbit i v =>
    simp only [act, hostWriteIbit] at h
    split at h <;> cases h
    exact .ibit _ (.element i v ‹_›)
  | writeIint i v =>
    simp only [act, hostWriteIint] at h
    split_ifs at h with hilm hi
    cases h
    exact .iint _ hilm (.element i v hi)
  | writeIrec i v =>
    simp only [act, hostWriteIrec] at h
    split at h <;> cases h
    exact .irec _ (.element i v ‹_›)
  | setIb l => exact hostEffect_setIb h
  | setIbit l =>
    simp only [act, hostSetIbit] at h
    split at h <;> cases h
    exact .ibit _ (.sequence l ‹_›)
  | setIint l =>
    simp only [act, hostSetIint] at h
    split_ifs at h with hilm hl hl <;> cases h
    · exact .iint _ hilm (.sequence l hl)
    · exact .unchanged
  | setIrec l => exact hostEffect_setIrec h
  | copyObToIb => exact hostEffect_setIb h
  | copyOrecToIrec => exact hostEffect_setIrec h
  | readElem b i => exact hostEffect_readElem h
  | readBuf b =>
    cases h
    exact .observed _
  | reset =>
    cases h
    exact .reset

/-- A step is quiet, or has the effect of the host's next action once that is off the script. -/
theorem hostEffect_of_step (h : step s = .next t) : ∃ rest, HostEffect { s with script := rest } t := by
  rcases step_cases s with ⟨-, hs⟩ | ⟨a, rest, -, hs⟩
  · obtain rfl : s = t := Host.Outcome.next.inj (hs.symm.trans h)
    exact ⟨s.script, .unchanged⟩
  · exact ⟨rest, hostEffect_of_act (hs.symm.trans h)⟩

theorem HostEffect.params_eq (h : HostEffect s t) : t.params = s.params := by
  cases h with
  | command w t h =>
    obtain ⟨ob, obit, oint, orec, status, hframe⟩ := runCommand_frame w s
    obtain rfl : _ = t := Host.Outcome.next.inj (hframe.symm.trans h)
    rfl
  | unchanged | observed | ib | ibit | iint | irec | reset => rfl

end

/-- Settles O44: no effect touches the parameters, and `CONFIG` is read off them. -/
theorem parametersAreConstant : Obligations.ParametersAreConstant := by
  unfold Obligations.ParametersAreConstant
  intro s t h
  obtain ⟨rest, heffect⟩ := hostEffect_of_step h
  have hp : t.params = s.params := heffect.params_eq
  exact ⟨hp, congrArg (fun p : Params => some (if p.hasIlm then (1 : Word) else 0)) hp⟩

/-! ### The invariant at reset -/

theorem inv_resetOf {p : Params} (hp : p.legal) : Inv (State.resetOf p) := by
  have hcontents {α : Type} (n : Nat) : contentsOk (Buf.empty : Buf α).mem n := ⟨.nil, nofun⟩
  have hstatus := resetOf_status_idle p
  exact ⟨⟨hp, Nat.zero_le _, Nat.zero_le _, Nat.zero_le _, Nat.zero_le _⟩,
    ⟨Nat.zero_le _, Nat.zero_le _, Nat.zero_le _, Nat.zero_le _⟩,
    ⟨hcontents _, hcontents _, hcontents _, hcontents _, rfl, rfl, rfl, rfl⟩,
    ⟨by rw [hstatus, statusWord_reserved], hadErr_of_status hstatus, fun _ => ⟨rfl, rfl, rfl, rfl⟩⟩,
    fun _ => ⟨rfl, rfl⟩, nofun, .nil⟩

/-- Settles O45: at reset every buffer is empty and `STATUS` is idle. -/
theorem invariantHoldsAtReset : Obligations.InvariantHoldsAtReset := by
  unfold Obligations.InvariantHoldsAtReset
  exact ⟨fun _ => inv_resetOf, inv_resetOf (by decide)⟩

/-! ### Input buffers -/

/-- A host write keeps an input buffer within its capacity and in canonical form. -/
theorem inputWrite_ok {α : Type} {cap : Nat} {b b' : Buf α} (h : InputWrite cap b b')
    (hlen : b.len.toNat ≤ cap) (hmem : contentsOk b.mem cap) :
    b'.len.toNat ≤ cap ∧ contentsOk b'.mem cap := by
  obtain ⟨hwf, hlt⟩ := hmem
  cases h with
  | length v hv => exact ⟨hv, hwf, hlt⟩
  | element i v hi =>
    refine ⟨hlen, Memory.write_wf hwf i v, fun e he => ?_⟩
    rcases Memory.mem_write he with rfl | he
    · exact hi
    · exact hlt e he
  | sequence l hl =>
    refine ⟨?_, Memory.writeFrom_wf hwf 0 l, fun e he => ?_⟩
    · rw [Buf.set, BitVec.toNat_ofNat]
      exact (Nat.mod_le _ _).trans hl
    · rcases Memory.mem_writeFrom he with he | ⟨-, he⟩
      · exact hlt e he
      · omega

/-! ### Output buffers -/

/-- What a command may leave in the outputs of a block with parameters `p` under the status code `c`. -/
structure OutputsOk (p : Params) (ob : List Byte) (obit : List Bool) (oint : List Word) (orec : List OutRec)
    (c : StatusCode) : Prop where
  ob_le : ob.length ≤ p.obCap
  obit_le : obit.length ≤ p.obitCap
  oint_le : oint.length ≤ p.ointCap
  orec_le : orec.length ≤ 12
  oint_absent : p.hasIlm = false → oint = []
  orec_ok : ∀ r ∈ orec, outRecOk r
  orec_ascending : orec.Pairwise fun a b => a.slot.toNat < b.slot.toNat
  empty_unless_ok : c ≠ .ok → ob = [] ∧ obit = [] ∧ oint = [] ∧ orec = []

theorem OutputsOk.empty (p : Params) (c : StatusCode) : OutputsOk p [] [] [] [] c where
  ob_le := Nat.zero_le _
  obit_le := Nat.zero_le _
  oint_le := Nat.zero_le _
  orec_le := Nat.zero_le _
  oint_absent _ := rfl
  orec_ok := nofun
  orec_ascending := .nil
  empty_unless_ok _ := ⟨rfl, rfl, rfl, rfl⟩

section
variable {s : State} (hs : Inv s)
include hs

/-- New outputs that are in order keep the invariant (10_state.md R35). -/
theorem inv_outcome {ob : List Byte} {obit : List Bool} {oint : List Word} {orec : List OutRec}
    {c : StatusCode} (h : OutputsOk s.params ob obit oint orec c) :
    Inv (outcome s (Buf.ofList ob) (Buf.ofList obit) (Buf.ofList oint) (Buf.ofList orec)
      (statusWord c false)) := by
  obtain ⟨hlaunch, -, ⟨hib, hibit, hiint, hirec, -⟩, -, habsent, -⟩ := hs
  obtain ⟨⟨-, -, -, -, ⟨-, -, -, -, hobCap⟩, ⟨-, hobitCap⟩, ⟨-, hointCap⟩, -⟩, -⟩ := id hlaunch
  have obFits : ob.length < 2 ^ 32 := h.ob_le.trans_lt hobCap
  have obitFits : obit.length < 2 ^ 32 := h.obit_le.trans_lt hobitCap
  have ointFits : oint.length < 2 ^ 32 := h.oint_le.trans_lt hointCap
  have orecFits : orec.length < 2 ^ 32 := h.orec_le.trans_lt (by decide)
  refine ⟨hlaunch,
    ⟨(Buf.ofList_len obFits).trans_le h.ob_le, (Buf.ofList_len obitFits).trans_le h.obit_le,
      (Buf.ofList_len ointFits).trans_le h.oint_le, (Buf.ofList_len orecFits).trans_le h.orec_le⟩,
    ⟨hib, hibit, hiint, hirec, Buf.indices_ofList obFits, Buf.indices_ofList obitFits,
      Buf.indices_ofList ointFits, Buf.indices_ofList orecFits⟩,
    ⟨statusWord_reserved c false, statusWord_hadErr c false, fun hcode => ?_⟩,
    fun hilm => ⟨(habsent hilm).1, congrArg Buf.ofList (h.oint_absent hilm)⟩,
    fun e he => h.orec_ok e.2 (Memory.mem_ofListFrom he),
    (Memory.pairwise_ofListFrom 0 h.orec_ascending).imp And.right⟩
  have hc : c ≠ .ok := fun e => hcode ((statusWord_code c false).trans (congrArg StatusCode.bits e))
  obtain ⟨hob, hobit, hoint, horec⟩ := h.empty_unless_ok hc
  exact ⟨congrArg Buf.ofList hob, congrArg Buf.ofList hobit, congrArg Buf.ofList hoint,
    congrArg Buf.ofList horec⟩

theorem inv_takeFault (c : StatusCode) : Inv (takeFault c s) :=
  inv_outcome hs (.empty s.params c)

theorem inv_putOb {l : List Byte} (h : l.length ≤ s.params.obCap) : Inv (putOb s l) :=
  inv_outcome hs (c := .ok)
    { OutputsOk.empty s.params .ok with ob_le := h, empty_unless_ok := fun h => absurd rfl h }

theorem inv_putObit {l : List Bool} (h : l.length ≤ s.params.obitCap) : Inv (putObit s l) :=
  inv_outcome hs (c := .ok)
    { OutputsOk.empty s.params .ok with obit_le := h, empty_unless_ok := fun h => absurd rfl h }

theorem inv_putOint {l : List Word} (hilm : s.params.hasIlm = true) (h : l.length ≤ s.params.ointCap) :
    Inv (putOint s l) :=
  inv_outcome hs (c := .ok)
    { OutputsOk.empty s.params .ok with
      oint_le := h, oint_absent := fun h => by simp [hilm] at h, empty_unless_ok := fun h => absurd rfl h }

theorem inv_runDecode (valid : Bool) : Inv (runDecode valid s) := by
  rw [runDecode_eq]
  exact inv_outcome hs (c := .ok)
    { OutputsOk.empty s.params .ok with
      orec_le := deckRecords_length_le _, orec_ok := fun _ => outRecOk_of_mem_deckRecords
      orec_ascending := emit_ascending _, empty_unless_ok := fun h => absurd rfl h }

/-- Every result of a command fits its output buffer, by the capacities of a legal block (00_scope.md R7). -/
theorem inv_runCommand {w : Word} {t : State} (h : runCommand w s = .next t) : Inv t := by
  obtain ⟨⟨⟨-, -, -, -, ⟨hob70, hobIbit, hobIint, hobIrec, -⟩, ⟨hobit, -⟩, ⟨hoint, -⟩, -⟩,
    hib, hibit, hiint, hirec⟩, -⟩ := id hs
  rcases runCommand_cases w s with
    ⟨c, -, hrun⟩ | ⟨e, hrun⟩ | hrun | ⟨hilm, hrun⟩ | ⟨hilm, hrun⟩ | ⟨valid, hrun⟩ | hrun | ⟨-, hrun⟩ <;>
    obtain rfl := Host.Outcome.next.inj (hrun.symm.trans h)
  · exact inv_takeFault hs c
  · have hle := bitCount_le s.ib.len.toNat e.toNat
    refine inv_putObit hs ?_
    rw [bytesToBits_length, ibSeq_length]
    omega
  · refine inv_putOb hs ?_
    rw [bitsToBytes_length, ibitSeq_length]
    omega
  · refine inv_putOb hs ?_
    rw [intsToBytes_length, iintSeq_length hilm]
    omega
  · refine inv_putOint hs hilm ?_
    rw [bytesToInts_length, ibSeq_length]
    omega
  · exact inv_runDecode hs valid
  · refine inv_putOb hs ?_
    rcases Nat.eq_zero_or_pos s.irecSeq.length with hnil | hpos
    · rw [encodeDeck, if_pos hnil]
      exact Nat.zero_le _
    · rwa [encodeDeck_length _ hpos]
  · refine inv_putOb hs ?_
    rw [intsToBytes_length, recordInts_length, irecSeq_length]
    omega

/-- Every effect of a host action keeps the invariant. -/
theorem HostEffect.inv {t : State} (h : HostEffect s t) : Inv t := by
  obtain ⟨⟨hlegal, hib, hibit, hiint, hirec⟩, hlengths, ⟨mib, mibit, miint, mirec, mout⟩, hstatus, habsent,
    hrecords⟩ := id hs
  cases h with
  | command w t h => exact inv_runCommand hs h
  | unchanged => exact hs
  | observed o => exact hs
  | ib b h =>
    obtain ⟨hlen, hmem⟩ := inputWrite_ok h hib mib
    exact ⟨⟨hlegal, hlen, hibit, hiint, hirec⟩, hlengths, ⟨hmem, mibit, miint, mirec, mout⟩, hstatus, habsent,
      hrecords⟩
  | ibit b h =>
    obtain ⟨hlen, hmem⟩ := inputWrite_ok h hibit mibit
    exact ⟨⟨hlegal, hib, hlen, hiint, hirec⟩, hlengths, ⟨mib, hmem, miint, mirec, mout⟩, hstatus, habsent,
      hrecords⟩
  | iint b hilm h =>
    obtain ⟨hlen, hmem⟩ := inputWrite_ok h hiint miint
    exact ⟨⟨hlegal, hib, hibit, hlen, hirec⟩, hlengths, ⟨mib, mibit, hmem, mirec, mout⟩, hstatus,
      fun h => by simp [hilm] at h, hrecords⟩
  | irec b h =>
    obtain ⟨hlen, hmem⟩ := inputWrite_ok h hirec mirec
    exact ⟨⟨hlegal, hib, hibit, hiint, hlen⟩, hlengths, ⟨mib, mibit, miint, hmem, mout⟩, hstatus, habsent,
      hrecords⟩
  | reset => exact inv_resetOf hlegal

end

/-- Settles O46: the script is no part of the invariant, and every effect keeps it. -/
theorem everyStepKeepsTheInvariant : Obligations.EveryStepKeepsTheInvariant := by
  unfold Obligations.EveryStepKeepsTheInvariant
  intro s t hs h
  obtain ⟨rest, heffect⟩ := hostEffect_of_step h
  have hrest : Inv { s with script := rest } := hs
  exact heffect.inv hrest

end Sys2Proof.Proofs
end
